-- ==== Sys2Proof/Word.lean ====
section
/-! DEFINITION. The word types of the RSA CORE: the 32-bit bus and control-register word, and the byte of BUF. -/

namespace Sys2Proof

/-- A bus word, a control register or a command word (R63, R90). -/
abbrev Word := BitVec 32

/-- One byte of BUF (R31). -/
abbrev Byte := BitVec 8

end Sys2Proof
end

