-- ==== Sys2Proof/Syntax.lean ====
section
/-! DEFINITION. The seven commands of spec/opcode_table.json, one constructor each, operands in field order (R92, R99). -/

namespace Sys2Proof

/-- The index of an operand register, R0 to R15 (R22, R92). -/
abbrev Reg := Fin 16

/-- The commands of the core (R3, R92). -/
inductive Instr where
  /-- `MODMUL Rd, Ra, Rb, Rm`: modular multiplication (R121). -/
  | modmul (rd ra rb rm : Reg)
  /-- `MODEXP Rd, Rbase, Rexp, Rmod`: modular exponentiation (R125). -/
  | modexp (rd rbase rexp rmod : Reg)
  /-- `EXTGCD Rinv, Rgcd, Ra, Rb`: extended Euclidean solver (R140). -/
  | extgcd (rinv rgcd ra rb : Reg)
  /-- `FERMAT Rn`: repeated Fermat primality test (R144). -/
  | fermat (rn : Reg)
  /-- `PRIMEGEN Rd, Rlo, Rhi`: prime generation (R150). -/
  | primegen (rd rlo rhi : Reg)
  /-- `ENCODE Rd`: the block BUF[0..BLEN-1] to an integer (R170). -/
  | encode (rd : Reg)
  /-- `DECODE Rs`: an integer to the block in BUF and BLEN (R175). -/
  | decode (rs : Reg)
  deriving DecidableEq, Repr

end Sys2Proof
end

