-- ==== Sys2Proof/WellFormed.lean ====
section
/-! DEFINITION. Which commands are well formed: every register field is an index 0 to 15 by its type, and the one further
condition is that EXTGCD's two destinations differ (R92, R96 item 4). -/

namespace Sys2Proof

/-- A command some legal word encodes (R96). -/
def Instr.wellFormed : Instr → Bool
  | .modmul _ _ _ _ => true
  | .modexp _ _ _ _ => true
  | .extgcd rinv rgcd _ _ => rinv != rgcd
  | .fermat _ => true
  | .primegen _ _ _ => true
  | .encode _ => true
  | .decode _ => true

end Sys2Proof
end

