-- ==== Sys2Proof/Decode.lean ====
section
/-! DEFINITION. The command word CMD32 (R90, R91): the decoder of R97, total on every word and rejecting by name, the opcode
table of R94 as rows of mask and match, the encoder, and the host's view of the decoder. -/

namespace Sys2Proof

/-- `v[hi:lo]` as a natural number (R8). -/
def bitSlice (v hi lo : Nat) : Nat := (v >>> lo) % 2 ^ (hi - lo + 1)

/-- The OP field, bits [31:24] (R91). -/
def opField (c : Word) : Nat := bitSlice c.toNat 31 24

/-- The RSV field, bits [7:0] (R91). -/
def rsvField (c : Word) : Nat := bitSlice c.toNat 7 0

/-- Register field F0, bits [23:20] (R91). -/
def field0 (c : Word) : Reg := Fin.ofNat 16 (bitSlice c.toNat 23 20)

/-- Register field F1, bits [19:16] (R91). -/
def field1 (c : Word) : Reg := Fin.ofNat 16 (bitSlice c.toNat 19 16)

/-- Register field F2, bits [15:12] (R91). -/
def field2 (c : Word) : Reg := Fin.ofNat 16 (bitSlice c.toNat 15 12)

/-- Register field F3, bits [11:8] (R91). -/
def field3 (c : Word) : Reg := Fin.ofNat 16 (bitSlice c.toNat 11 8)

/-- Why a word is illegal (R96). The core reports every one of them by the same error code, ILLEGAL_COMMAND. -/
inductive IllegalReason where
  /-- OP is 0x00 or 0x08 to 0xFF (R95, R96 item 1). -/
  | reservedOpcode
  /-- RSV is not 0 (R96 item 2). -/
  | reservedBits
  /-- A field marked "must be 0" is not 0 (R96 item 3). -/
  | unusedField
  /-- EXTGCD with F0 = F1 (R96 item 4). -/
  | sameDestinations
  deriving DecidableEq, Repr

/-- What decoding a word gives: a command, or Illegal with its reason (R97). -/
inductive Decoded where
  | command (i : Instr)
  | illegal (why : IllegalReason)
  deriving DecidableEq, Repr

/-- The decoder of R97. -/
def decodeWord (c : Word) : Decoded :=
  let f0 := field0 c
  let f1 := field1 c
  let f2 := field2 c
  let f3 := field3 c
  if rsvField c ≠ 0 then .illegal .reservedBits
  else
    match opField c with
    | 0x01 => .command (.modmul f0 f1 f2 f3)
    | 0x02 => .command (.modexp f0 f1 f2 f3)
    | 0x03 => if f0 = f1 then .illegal .sameDestinations else .command (.extgcd f0 f1 f2 f3)
    | 0x04 => if f0 = 0 ∧ f2 = 0 ∧ f3 = 0 then .command (.fermat f1) else .illegal .unusedField
    | 0x05 => if f3 = 0 then .command (.primegen f0 f1 f2) else .illegal .unusedField
    | 0x06 => if f1 = 0 ∧ f2 = 0 ∧ f3 = 0 then .command (.encode f0) else .illegal .unusedField
    | 0x07 => if f0 = 0 ∧ f2 = 0 ∧ f3 = 0 then .command (.decode f1) else .illegal .unusedField
    | _ => .illegal .reservedOpcode

/-- The word with the given OP and register fields and RSV = 0 (R91). -/
def packWord (op : Nat) (f0 f1 f2 f3 : Reg) : Word :=
  BitVec.ofNat 32 (op * 2 ^ 24 + f0.val * 2 ^ 20 + f1.val * 2 ^ 16 + f2.val * 2 ^ 12 + f3.val * 2 ^ 8)

/-- The encoder: the word of a command, from the tables of R92 and R94. -/
def encodeWord : Instr → Word
  | .modmul rd ra rb rm => packWord 0x01 rd ra rb rm
  | .modexp rd rbase rexp rmod => packWord 0x02 rd rbase rexp rmod
  | .extgcd rinv rgcd ra rb => packWord 0x03 rinv rgcd ra rb
  | .fermat rn => packWord 0x04 0 rn 0 0
  | .primegen rd rlo rhi => packWord 0x05 rd rlo rhi 0
  | .encode rd => packWord 0x06 rd 0 0 0
  | .decode rs => packWord 0x07 0 rs 0 0

/-- One row of the opcode map of R94. -/
structure OpcodeRow where
  mnemonic : String
  mask : Word
  pattern : Word
  deriving DecidableEq, Repr

/-- A word fits a row when `c & mask = match` (R94). -/
def OpcodeRow.fits (r : OpcodeRow) (c : Word) : Bool := c &&& r.mask == r.pattern

/-- The opcode map of R94, a row for each command. -/
def opcodeRow : Instr → OpcodeRow
  | .modmul _ _ _ _ => { mnemonic := "MODMUL", mask := 0xFF0000FF#32, pattern := 0x01000000#32 }
  | .modexp _ _ _ _ => { mnemonic := "MODEXP", mask := 0xFF0000FF#32, pattern := 0x02000000#32 }
  | .extgcd _ _ _ _ => { mnemonic := "EXTGCD", mask := 0xFF0000FF#32, pattern := 0x03000000#32 }
  | .fermat _ => { mnemonic := "FERMAT", mask := 0xFFF0FFFF#32, pattern := 0x04000000#32 }
  | .primegen _ _ _ => { mnemonic := "PRIMEGEN", mask := 0xFF000FFF#32, pattern := 0x05000000#32 }
  | .encode _ => { mnemonic := "ENCODE", mask := 0xFF0FFFFF#32, pattern := 0x06000000#32 }
  | .decode _ => { mnemonic := "DECODE", mask := 0xFFF0FFFF#32, pattern := 0x07000000#32 }

/-- The command word with the table's bits `w`, of which `nbits` are given; the bits above are 0 (R90: one 32-bit word). -/
def tableWord (nbits w : Nat) : Word := BitVec.ofNat 32 (w % 2 ^ nbits)

/-- What the decoder reads from a row's word, for the host. -/
def decodeTableWord (nbits w : Nat) : Option Instr :=
  match decodeWord (tableWord nbits w) with
  | .command i => some i
  | .illegal _ => none

end Sys2Proof
end

