-- ==== Sys2Proof/Config.lean ====
section
/-! DEFINITION. What one implementation of the core fixes (the operand width W and the window's base BASE), the
constants the spec fixes, and the free values, which have no body. -/

namespace Sys2Proof

/-- The two OPEN parameters of an implementation (R5, R61; 93 I17, I18). Every legal W is one value of `extraWords`
and every legal BASE one value of `basePage`, so an illegal build cannot be written down. -/
structure Build where
  /-- WWORDS - 2: W is a multiple of 32 with 64 <= W <= 2048 (R5). -/
  extraWords : Fin 63
  /-- BASE / 8192: BASE is aligned to 8 KiB (R61). -/
  basePage : Nat
  deriving DecidableEq, Repr

namespace Build

/-- WWORDS, the 32-bit words of one operand register (R5). -/
def wwords (b : Build) : Nat := b.extraWords.val + 2

/-- W, the width in bits of an operand register (R5). -/
def width (b : Build) : Nat := 32 * b.wwords

/-- BMAX, the size of BUF in bytes: W / 8 (R5). -/
def bmax (b : Build) : Nat := b.width / 8

/-- BASE, the window's base address in the host's address space (R61). -/
def base (b : Build) : Nat := 8192 * b.basePage

end Build

namespace Config

/-- NREG (R5, R24). -/
def nreg : Nat := 16

/-- The constant ID register, the ASCII bytes "MEXP" (R23). -/
def idValue : Word := 0x4D455850#32

/-- Reset value of TRIALS (R27, R241). -/
def trialsReset : BitVec 16 := 100#16

/-- Reset value of RETRY_LIMIT (R28, R241). -/
def retryLimitReset : Word := 100000#32

/-- Size of the host register window in bytes: 8 KiB (R60). -/
def windowBytes : Nat := 0x2000

/-- The build of `State.reset`. DESIGN CHOICE (log entries 1 and 2): W = 1024 and BASE = 0. The spec leaves both OPEN;
`State.resetOf` is the reset state of every build, and no statement rests on this value. -/
def resetBuild : Build := { extraWords := 30, basePage := 0 }

/-- The entropy source's raw draw number `k`: a free value (R222, 93 I7; log entry 5). It has no body, so nothing can be
proved of it. The range of a witness or of a candidate is imposed where the draw is used. -/
opaque freeDraw : Nat → Nat

/-- The data of the `k`-th refused read: a free value, "unspecified" in R63 (93 I14; log entry 7). -/
opaque refusedReadData : Nat → Word

end Config

end Sys2Proof
end

