-- ==== Sys2Proof/Machine/State.lean ====
section
/-! DEFINITION. The state of the core as plain data (R37), the model's own fields beside it (the schedule of events, the bus
reply and the entropy source's free inputs), the reset state (R241), and the reasons a step could stop. -/

namespace Sys2Proof.Machine

/-- BUF as byte cells, keyed by the byte's number in BUF: strictly rising keys, no cell holding 0. A byte no cell names
reads 0, the reset value the spec gives every byte (R31, R241; log entry 9). -/
abbrev Memory := List Host.Cell

/-- The model's own: the free inputs of the entropy source (R222; log entry 5). -/
structure Entropy where
  /-- Raw draws that stand ready, oldest first. With none left, a draw is `Config.freeDraw spent`. -/
  supplied : List Nat
  /-- How many draws have been taken. -/
  spent : Nat
  deriving DecidableEq, Repr

/-- One event of the sequence of R70: what happens in one step of the machine. -/
inductive Event where
  /-- A host read of `size` bytes at physical address `addr` (R63). -/
  | read (addr size : Nat)
  /-- A host write of `size` bytes at physical address `addr`; `data` is the word a 4-byte write carries (R63). -/
  | write (addr size : Nat) (data : Word)
  /-- The engine's turn: it performs the pending command, if there is one (R36). -/
  | engine
  /-- The reset input `rst` was asserted and has ended (R240). -/
  | hardReset
  deriving DecidableEq, Repr

/-- The model's own: what the bus answered to the last host access. -/
inductive BusReply where
  /-- No access was performed, or the last one did not address the window (R61). -/
  | none
  /-- A read was served with this word (R64, R65). -/
  | data (v : Word)
  /-- A write was taken by the core; the host cannot tell a stored write from an ignored or dropped one here. -/
  | written
  /-- A read was refused with a bus error; its data are a free value (R63). -/
  | readError (v : Word)
  /-- A write was refused with a bus error (R63). -/
  | writeError
  deriving DecidableEq, Repr

/-- Why a step could end in a fault. There is no such reason: the core has no trap (R213), every error of a command is
recorded in STATUS and the machine goes on (R205, R209), and a refused host access is a bus error the host sees in `reply`
(R63, R207). So no step faults, which neither adds nor hides a behaviour: safe (log entry 19). -/
inductive Fault where
  deriving DecidableEq, Repr

/-- Why a step could be refused. -/
inductive Refusal where
  /-- Raised by an arm of `exec` whose command has no meaning yet. Safe: the machine stops. No arm raises it now. -/
  | notModelled (mnemonic : String)
  deriving DecidableEq, Repr

/-- The state of the core (R37), its build, and the model's own fields. -/
structure State where
  /-- W and BASE of this implementation; no step changes it (R5, R61). -/
  build : Build
  /-- R0 to R15, each below 2^W (R22). -/
  regs : Vector Nat 16
  /-- BUF (R31). -/
  buf : Memory
  /-- BLEN (R29). -/
  blen : Word
  /-- TRIALS[15:0], never 0 (R27). -/
  trials : BitVec 16
  /-- RETRY_LIMIT, never 0 (R28). -/
  retryLimit : Word
  /-- CMD (R30). -/
  cmd : Word
  /-- CTRL.IE (R25). -/
  ie : Bool
  /-- STATUS.BUSY: a command is pending (R26, R35). -/
  busy : Bool
  /-- STATUS.DONE (R26). -/
  done : Bool
  /-- STATUS.ERR (R26). -/
  err : Bool
  /-- STATUS.PRIME (R26). -/
  prime : Bool
  /-- STATUS.OVR (R26). -/
  ovr : Bool
  /-- STATUS.ECODE (R26, R200). -/
  ecode : BitVec 4
  /-- The model's own: the entropy source's free inputs. -/
  entropy : Entropy
  /-- The model's own: the events still to come, the next one first. -/
  schedule : List Event
  /-- The model's own: the bus's answer to the last host access. -/
  reply : BusReply
  /-- The model's own: how many reads have been refused. -/
  refusedReads : Nat
  deriving DecidableEq, Repr

/-- The reset state of a build (R241), with nothing scheduled and no draw taken. -/
def State.resetOf (b : Build) : State :=
  { build := b
    regs := Vector.replicate 16 0
    buf := []
    blen := 0
    trials := Config.trialsReset
    retryLimit := Config.retryLimitReset
    cmd := 0
    ie := false
    busy := false
    done := false
    err := false
    prime := false
    ovr := false
    ecode := 0
    entropy := { supplied := [], spent := 0 }
    schedule := []
    reply := .none
    refusedReads := 0 }

/-- The machine right after reset, for the build `Config.resetBuild` (log entries 1 and 2). -/
def State.reset : State := State.resetOf Config.resetBuild

end Sys2Proof.Machine
end

