-- ==== Sys2Proof/Machine/Flags.lean ====
section
/-! DEFINITION. The flags: every computation the spec gives over the STATUS bits (R26, R32), the STATUS and CTRL words as the
host reads them, the error codes (R200) and the interrupt level (R210). -/

namespace Sys2Proof.Machine

/-- The error causes of R200, less NONE and the reserved codes 5 to 15, which no command raises (93 I13). -/
inductive ErrorCause where
  /-- The word in CMD is illegal (R201). -/
  | illegalCommand
  /-- An operand is outside the command's domain (R202). -/
  | arithPrecondition
  /-- ENCODE's block is too long or holds a zero byte (R203). -/
  | invalidInput
  /-- PRIMEGEN drew RETRY_LIMIT candidates and none passed (R206). -/
  | generationExhausted
  deriving DecidableEq, Repr

/-- The value of STATUS.ECODE for a cause (R200). -/
def errorCode : ErrorCause → BitVec 4
  | .illegalCommand => 1
  | .arithPrecondition => 2
  | .invalidInput => 3
  | .generationExhausted => 4

/-- A flag as the bit at position `i` of a word. -/
def flagBit (b : Bool) (i : Nat) : Nat := if b then 2 ^ i else 0

/-- STATUS as the host reads it (R26): BUSY [0], DONE [1], ERR [2], PRIME [3], OVR [4], ECODE [11:8], the rest 0. -/
def statusWord (s : State) : Word :=
  BitVec.ofNat 32 (flagBit s.busy 0 + flagBit s.done 1 + flagBit s.err 2 + flagBit s.prime 3 + flagBit s.ovr 4
    + s.ecode.toNat * 2 ^ 8)

/-- CTRL as the host reads it (R25): IE [0], the rest 0, SRST among them. -/
def ctrlWord (s : State) : Word := BitVec.ofNat 32 (flagBit s.ie 0)

/-- The interrupt output: CTRL.IE and STATUS.DONE (R210). -/
def irq (s : State) : Bool := s.ie && s.done

/-- The flags at the start of a command (R204): OVR keeps its value. -/
def startFlags (s : State) : State :=
  { s with busy := true, done := false, err := false, prime := false, ecode := 0 }

/-- The flags when a command completes without error (R208); `verdict` is FERMAT's result and false for every other command. -/
def okFlags (verdict : Bool) (s : State) : State :=
  { s with busy := false, done := true, err := false, prime := verdict, ecode := 0 }

/-- The flags when a command completes with an error (R205). -/
def errorFlags (e : ErrorCause) (s : State) : State :=
  { s with busy := false, done := true, err := true, prime := false, ecode := errorCode e }

/-- A host write to STATUS: DONE and OVR are cleared where the written bit is 1, nothing else changes (R26). -/
def writeOneToClear (v : Word) (s : State) : State :=
  { s with done := s.done && !v.getLsbD 1, ovr := s.ovr && !v.getLsbD 4 }

end Sys2Proof.Machine
end

