-- ==== Sys2Proof/Machine/Ops.lean ====
section
/-! DEFINITION. The named operations over BUF's memory, the operand registers and the entropy source; completing a command,
with or without an error; starting a command; reset. -/

namespace Sys2Proof.Machine

/-! ### BUF as memory (R31) -/

/-- What a byte that no cell names reads as: the reset value 0 (R31, R241). -/
def unlistedByte : Byte := 0

/-- Read one byte. -/
def Memory.read : Memory → Nat → Byte
  | [], _ => unlistedByte
  | (k, b) :: rest, a => if a = k then b else Memory.read rest a

/-- Write one byte, keeping the canonical form: keys rise and no cell holds the unlisted value. -/
def Memory.write : Memory → Nat → Byte → Memory
  | [], a, v => if v = unlistedByte then [] else [(a, v)]
  | (k, b) :: rest, a, v =>
    if a < k then (if v = unlistedByte then (k, b) :: rest else (a, v) :: (k, b) :: rest)
    else if a = k then (if v = unlistedByte then rest else (a, v) :: rest)
    else (k, b) :: Memory.write rest a v

/-- Every key is above `lo` (when there is a `lo`), keys rise strictly, and no cell holds the unlisted value. -/
def Memory.wfFrom : Option Nat → Memory → Bool
  | _, [] => true
  | lo, (k, b) :: rest => (lo.all (· < k)) && b != unlistedByte && Memory.wfFrom (some k) rest

/-- The canonical form of BUF's memory (log entry 9). -/
def Memory.wf (m : Memory) : Bool := Memory.wfFrom none m

/-- Every cell names a byte below `n`. -/
def Memory.below (n : Nat) (m : Memory) : Bool := m.all (fun c => decide (c.1 < n))

/-- The memory whose byte `j` is `f j` for `j < n`, and nothing else listed: what writing all of BUF leaves (R175). -/
def Memory.ofBytes (f : Nat → Byte) : Nat → Memory
  | 0 => []
  | n + 1 => Memory.write (Memory.ofBytes f n) n (f n)

/-- `BUF[j]` (R9). -/
def bufByte (s : State) (j : Nat) : Byte := Memory.read s.buf j

/-- `BUF[j] <- b` (R9). -/
def setBufByte (j : Nat) (b : Byte) (s : State) : State := { s with buf := Memory.write s.buf j b }

/-! ### Operand registers (R22) -/

/-- `x[i]` (R9). No register is hard-wired (R22). -/
def reg (s : State) (i : Reg) : Nat := s.regs.get i

/-- `x[i] <- v` (R9). -/
def setReg (i : Reg) (v : Nat) (s : State) : State := { s with regs := s.regs.set i.val v i.isLt }

/-! ### Completing a command -/

/-- `raise E` (R9, R205): the one operation that takes an error. No destination, BUF byte or BLEN is written; STATUS records
the code. The core has no trap: nothing is saved, no mode changes and there is no return (R213, R214). -/
def raise (e : ErrorCause) (s : State) : State := errorFlags e s

/-- Normal completion, after the destinations are written (R208). -/
def complete (verdict : Bool) (s : State) : State := okFlags verdict s

/-! ### Starting a command and reset -/

/-- A CMD write while BUSY = 0 (R204): the word is stored and its command starts. -/
def startCommand (c : Word) (s : State) : State := { startFlags s with cmd := c }

/-- Every piece of the spec's state takes its reset value (R240 to R242). The build stays, and so do the model's own fields:
the events still to come, the bus reply, and the entropy source's position, since a reset replays no draw (R222; log entry 6). -/
def resetState (s : State) : State :=
  { State.resetOf s.build with
    entropy := s.entropy, schedule := s.schedule, reply := s.reply, refusedReads := s.refusedReads }

/-! ### The entropy source (R222) -/

/-- One raw draw, and the source after it: the oldest supplied draw, or a free value when none stands ready (log entry 5). -/
def drawRaw (e : Entropy) : Nat × Entropy :=
  match e.supplied with
  | [] => (Config.freeDraw e.spent, { e with spent := e.spent + 1 })
  | r :: rest => (r, { supplied := rest, spent := e.spent + 1 })

/-- The source after `k` draws. -/
def afterDraws : Nat → Entropy → Entropy
  | 0, e => e
  | k + 1, e => afterDraws k (drawRaw e).2

/-- The witness a raw draw stands for: any integer in [2, n-2] (R222), each value from some raw draw. -/
def witnessOf (n raw : Nat) : Nat := 2 + raw % (n - 3)

/-- The least odd integer that is not below `lo`. -/
def firstOdd (lo : Nat) : Nat := if lo % 2 = 1 then lo else lo + 1

/-- The candidate a raw draw stands for: any odd integer in [lo, hi] (R222), each value from some raw draw. -/
def candidateOf (lo hi raw : Nat) : Nat := firstOdd lo + 2 * (raw % ((hi - firstOdd lo) / 2 + 1))

/-- `draw_witness(n)` (R9, R222). -/
def drawWitness (n : Nat) (e : Entropy) : Nat × Entropy := (witnessOf n (drawRaw e).1, (drawRaw e).2)

/-- `draw_candidate(lo, hi)` (R9, R222). -/
def drawCandidate (lo hi : Nat) (e : Entropy) : Nat × Entropy := (candidateOf lo hi (drawRaw e).1, (drawRaw e).2)

/-- The next `k` witnesses the entropy source would give for `n`, in order: what claims about FERMAT's draws speak of. -/
def witnesses (n : Nat) : Nat → Entropy → List Nat
  | 0, _ => []
  | k + 1, e => (drawWitness n e).1 :: witnesses n k (drawWitness n e).2

end Sys2Proof.Machine
end

