-- ==== Sys2Proof/Machine/Operands.lean ====
section
/-! DEFINITION. The operand forms: the words of an operand register (R64), the words of BUF (R65), and the block
BUF[0..BLEN-1] that ENCODE reads implicitly (R170). No command has an immediate (R93). -/

namespace Sys2Proof.Machine

/-- Word `k` of the natural `v`: `v[32k+31:32k]` (R8, R64). -/
def wordSlice (v k : Nat) : Nat := (v >>> (32 * k)) % 2 ^ 32

/-- The register value with word `k` replaced by `w`, no other word changed (R64). -/
def replaceWord (v k : Nat) (w : Word) : Nat := v - wordSlice v k * 2 ^ (32 * k) + w.toNat * 2 ^ (32 * k)

/-- `byte_i(v)`: `v[8i+7:8i]`, counting from the least significant byte (R8). -/
def byteOf (v i : Nat) : Byte := BitVec.ofNat 8 (v >>> (8 * i))

/-- Word `k` of register `i` as the host reads it (R64). -/
def readRegWord (s : State) (i : Reg) (k : Nat) : Word := BitVec.ofNat 32 (wordSlice (reg s i) k)

/-- A host write to word `k` of register `i` (R64). -/
def writeRegWord (i : Reg) (k : Nat) (w : Word) (s : State) : State := setReg i (replaceWord (reg s i) k w) s

/-- Word `j` of BUF as the host reads it: the lowest-numbered byte in bits [7:0] (R65, R66). -/
def readBufWord (s : State) (j : Nat) : Word :=
  bufByte s (4 * j + 3) ++ bufByte s (4 * j + 2) ++ bufByte s (4 * j + 1) ++ bufByte s (4 * j)

/-- A host write to word `j` of BUF (R65). -/
def writeBufWord (j : Nat) (w : Word) (s : State) : State :=
  setBufByte (4 * j + 3) (w.extractLsb' 24 8) <| setBufByte (4 * j + 2) (w.extractLsb' 16 8) <|
    setBufByte (4 * j + 1) (w.extractLsb' 8 8) <| setBufByte (4 * j) (w.extractLsb' 0 8) s

/-- A byte of `BUF[0..len-1]` is 0 (R170). -/
def blockHasZero (s : State) (len : Nat) : Bool := (List.range len).any (fun i => bufByte s i == 0)

end Sys2Proof.Machine
end

