-- ==== Sys2Proof/Machine/Codec.lean ====
section
/-! DEFINITION. The block codec commands ENCODE and DECODE (R170 to R179). -/

namespace Sys2Proof.Machine

/-- `encode(BUF[0..len-1])`: the sum of `BUF[i] * 256^i` (R171). -/
def encodeBlock (s : State) : Nat → Nat
  | 0 => 0
  | len + 1 => encodeBlock s len + (bufByte s len).toNat * 256 ^ len

/-- ENCODE (R170): the length is checked first, then the bytes (R212). -/
def execEncode (rd : Reg) (s : State) : Host.Outcome State Fault Refusal :=
  let len := s.blen.toNat
  if s.build.bmax < len then .next (raise .invalidInput s)
  else if blockHasZero s len then .next (raise .invalidInput s)
  else .next (complete false (setReg rd (encodeBlock s len) s))

/-- The byte the decoding loop extracts at index `i`, by the source's formula (R176). -/
def extractedByte (v i : Nat) : Byte := BitVec.ofNat 8 ((v % 256 ^ (i + 1) - v % 256 ^ i) / 256 ^ i)

/-- The loop of `decode` from index `i` (R176): it stops at the first zero byte, which is dropped. `fuel` bounds the bytes. -/
def decodeLoop (v : Nat) : Nat → Nat → List Byte
  | 0, _ => []
  | fuel + 1, i => if extractedByte v i = 0 then [] else extractedByte v i :: decodeLoop v fuel (i + 1)

/-- `decode(v)` (R176). The loop stops within `bmax` bytes for every register value (log entry 13). -/
def decodeValue (bmax v : Nat) : List Byte := decodeLoop v bmax 0

/-- DECODE (R175): all of BUF is written, with 0 above the output, and BLEN takes the output's length. -/
def execDecode (rs : Reg) (s : State) : Host.Outcome State Fault Refusal :=
  let out := decodeValue s.build.bmax (reg s rs)
  .next (complete false
    { s with
      buf := Memory.ofBytes (fun j => if j < out.length then out.getD j 0 else 0) s.build.bmax
      blen := BitVec.ofNat 32 out.length })

end Sys2Proof.Machine
end

