-- ==== Sys2Proof/Machine/ModArith.lean ====
section
/-! DEFINITION. The modular arithmetic commands MODMUL and MODEXP (R120 to R128). All arithmetic is exact (R7, R122). -/

namespace Sys2Proof.Machine

/-- The loop of `modexp` (R126). `fuel` bounds the iterations: one for each bit of the exponent. -/
def modexpLoop : Nat → Nat → Nat → Nat → Nat → Nat
  | 0, result, _, _, _ => result
  | fuel + 1, result, base, exp, m =>
    if exp = 0 then result
    else modexpLoop fuel (if exp % 2 = 1 then (result * base) % m else result) ((base * base) % m) (exp / 2) m

/-- `modexp(b, e, m)` for m >= 1: square-and-multiply, least significant bit first, from `1 mod m` (R126, R127; 90 C1). The
fuel is at least the exponent's bit length (log entry 14). -/
def modexp (b e m : Nat) : Nat := modexpLoop (Nat.log2 e + 1) (1 % m) b e m

/-- MODMUL (R121). -/
def execModmul (rd ra rb rm : Reg) (s : State) : Host.Outcome State Fault Refusal :=
  let a := reg s ra
  let b := reg s rb
  let m := reg s rm
  if m = 0 then .next (raise .arithPrecondition s)
  else .next (complete false (setReg rd ((a * b) % m) s))

/-- MODEXP (R125). -/
def execModexp (rd rbase rexp rmod : Reg) (s : State) : Host.Outcome State Fault Refusal :=
  let b := reg s rbase
  let e := reg s rexp
  let m := reg s rmod
  if m = 0 then .next (raise .arithPrecondition s)
  else .next (complete false (setReg rd (modexp b e m) s))

end Sys2Proof.Machine
end

