-- ==== Sys2Proof/Machine/NumTheory.lean ====
section
/-! DEFINITION. The number-theory commands EXTGCD, FERMAT and PRIMEGEN (R140 to R151). -/

namespace Sys2Proof.Machine

/-- The loop of `ext_gcd` (R141): remainders are naturals, the coefficients of `b` exact signed integers. It gives
`(old_t, old_r)`. `fuel` bounds the iterations. -/
def extGcdLoop : Nat → Nat → Nat → Int → Int → Int × Nat
  | 0, oldR, _, oldT, _ => (oldT, oldR)
  | fuel + 1, oldR, r, oldT, t =>
    if r = 0 then (oldT, oldR)
    else extGcdLoop fuel r (oldR - (oldR / r) * r) t (oldT - ((oldR / r : Nat) : Int) * t)

/-- `ext_gcd(a, b)` for a >= 1: the pair (inverse, gcd) (R141). The loop runs at most b + 1 times (R142 law 6; log entry 14). -/
def extGcd (a b : Nat) : Nat × Nat :=
  let p := extGcdLoop (b + 1) a b 0 1
  ((p.1 % (a : Int)).toNat, p.2)

/-- EXTGCD (R140). With `rinv = rgcd` the command is illegal (R96 item 4); the decoder gives no such command. -/
def execExtgcd (rinv rgcd ra rb : Reg) (s : State) : Host.Outcome State Fault Refusal :=
  let a := reg s ra
  let b := reg s rb
  if rinv = rgcd then .next (raise .illegalCommand s)
  else if a = 0 then .next (raise .arithPrecondition s)
  else .next (complete false (setReg rgcd (extGcd a b).2 (setReg rinv (extGcd a b).1 s)))

/-- One Fermat trial of `n` with witness `a` passes (R145). -/
def fermatPasses (n a : Nat) : Bool := modexp a (n - 1) n == 1

/-- `fermat(n, T)` for odd n >= 5 (R145): one draw a trial, in order, stopping at the first failing trial. -/
def fermat (n : Nat) : Nat → Entropy → Bool × Entropy
  | 0, e => (true, e)
  | T + 1, e =>
    if fermatPasses n (drawWitness n e).1 then fermat n T (drawWitness n e).2 else (false, (drawWitness n e).2)

/-- FERMAT (R144). It writes no register; the verdict goes to STATUS.PRIME. -/
def execFermat (rn : Reg) (s : State) : Host.Outcome State Fault Refusal :=
  let n := reg s rn
  if n ≤ 3 ∨ n % 2 = 0 then .next (raise .arithPrecondition s)
  else
    let r := fermat n s.trials.toNat s.entropy
    .next (complete r.1 { s with entropy := r.2 })

/-- The retry loop of PRIMEGEN (R150): the first candidate that passes `T` trials, or none after the given number of
candidates. -/
def primegenLoop (lo hi T : Nat) : Nat → Entropy → Option Nat × Entropy
  | 0, e => (none, e)
  | L + 1, e =>
    let c := drawCandidate lo hi e
    let p := fermat c.1 T c.2
    if p.1 then (some c.1, p.2) else primegenLoop lo hi T L p.2

/-- PRIMEGEN (R150). -/
def execPrimegen (rd rlo rhi : Reg) (s : State) : Host.Outcome State Fault Refusal :=
  let lo := reg s rlo
  let hi := reg s rhi
  if lo < 5 ∨ hi < lo ∨ (lo = hi ∧ lo % 2 = 0) then .next (raise .arithPrecondition s)
  else
    let r := primegenLoop lo hi s.trials.toNat s.retryLimit.toNat s.entropy
    match r.1 with
    | some c => .next (complete false (setReg rd c { s with entropy := r.2 }))
    | none => .next (raise .generationExhausted { s with entropy := r.2 })

end Sys2Proof.Machine
end

