-- ==== Sys2Proof/Machine/Dispatch.lean ====
section
/-! DEFINITION. The meaning of every command: one arm for each constructor. -/

namespace Sys2Proof.Machine

def exec (i : Instr) (s : State) : Host.Outcome State Fault Refusal :=
  match i with
  | .modmul rd ra rb rm => Sys2Proof.Machine.execModmul rd ra rb rm s
  | .modexp rd rbase rexp rmod => Sys2Proof.Machine.execModexp rd rbase rexp rmod s
  | .extgcd rinv rgcd ra rb => Sys2Proof.Machine.execExtgcd rinv rgcd ra rb s
  | .fermat rn => Sys2Proof.Machine.execFermat rn s
  | .primegen rd rlo rhi => Sys2Proof.Machine.execPrimegen rd rlo rhi s
  | .encode rd => Sys2Proof.Machine.execEncode rd s
  | .decode rs => Sys2Proof.Machine.execDecode rs s

end Sys2Proof.Machine
end

