-- ==== Sys2Proof/Machine/Window.lean ====
section
/-! DEFINITION. The host register window (R60 to R69): the address map, host reads and writes with their side effects, the
busy lock (R250), and one bus access. -/

namespace Sys2Proof.Machine

/-- What an offset of the window names (R62). A BUF word `j >= BMAX/4` and a register word `k >= WWORDS` behave as reserved
offsets do (R64, R65, R250; 92 D46). -/
inductive Target where
  | id
  | param
  | ctrl
  | status
  | cmd
  | trials
  | retryLimit
  | blen
  | bufWord (j : Nat)
  | regWord (i : Reg) (k : Nat)
  | reserved
  deriving DecidableEq, Repr

/-- The control registers of R62, by offset; every other offset below 0x800 is reserved. -/
def controlTarget (off : Nat) : Target :=
  match off with
  | 0x000 => .id
  | 0x004 => .param
  | 0x008 => .ctrl
  | 0x00C => .status
  | 0x010 => .cmd
  | 0x014 => .trials
  | 0x018 => .retryLimit
  | 0x01C => .blen
  | _ => .reserved

/-- Word `j` of the BUF region (R65). -/
def bufTarget (b : Build) (j : Nat) : Target := if j < b.bmax / 4 then .bufWord j else .reserved

/-- Word `k` of operand register `i`'s 0x100 bytes (R64). -/
def regTarget (b : Build) (i k : Nat) : Target := if k < b.wwords then .regWord (Fin.ofNat 16 i) k else .reserved

/-- The map of R62, for an offset that is a multiple of 4. -/
def targetOf (b : Build) (off : Nat) : Target :=
  if off < 0x800 then controlTarget off
  else if off < 0x900 then bufTarget b ((off - 0x800) / 4)
  else if off < 0x1000 then .reserved
  else if off < 0x2000 then regTarget b ((off - 0x1000) / 0x100) ((off - 0x1000) % 0x100 / 4)
  else .reserved

/-- The busy-locked targets (R62, R250). -/
def busyLocked : Target → Bool
  | .cmd => true
  | .trials => true
  | .retryLimit => true
  | .blen => true
  | .bufWord _ => true
  | .regWord _ _ => true
  | .id => false
  | .param => false
  | .ctrl => false
  | .status => false
  | .reserved => false

/-- PARAM: WWORDS [7:0], NREG [15:8], BMAX [31:16] (R24). -/
def paramWord (b : Build) : Word := BitVec.ofNat 32 (b.wwords + Config.nreg * 2 ^ 8 + b.bmax * 2 ^ 16)

/-- The word a host read of a target returns (R23 to R31, R34, R64, R65). A read changes nothing (R68). -/
def readTarget (s : State) : Target → Word
  | .id => Config.idValue
  | .param => paramWord s.build
  | .ctrl => ctrlWord s
  | .status => statusWord s
  | .cmd => s.cmd
  | .trials => s.trials.setWidth 32
  | .retryLimit => s.retryLimit
  | .blen => s.blen
  | .bufWord j => readBufWord s j
  | .regWord i k => readRegWord s i k
  | .reserved => 0

/-- A host write to CTRL: bit 31 = 1 performs a soft reset whatever bit 0 is; otherwise IE takes bit 0 (R25, R242). -/
def writeCtrl (v : Word) (s : State) : State :=
  if v.getLsbD 31 then resetState s else { s with ie := v.getLsbD 0 }

/-- A host write to TRIALS: bits [15:0], and a write of 0 there leaves the field unchanged (R27). -/
def writeTrials (v : Word) (s : State) : State :=
  if v.setWidth 16 = 0#16 then s else { s with trials := v.setWidth 16 }

/-- A host write to RETRY_LIMIT: a write of 0 leaves it unchanged (R28). -/
def writeRetryLimit (v : Word) (s : State) : State := if v = 0#32 then s else { s with retryLimit := v }

/-- What a host write that is not dropped does (R68). -/
def storeTarget (v : Word) (s : State) : Target → State
  | .id => s
  | .param => s
  | .ctrl => writeCtrl v s
  | .status => writeOneToClear v s
  | .cmd => startCommand v s
  | .trials => writeTrials v s
  | .retryLimit => writeRetryLimit v s
  | .blen => { s with blen := v }
  | .bufWord j => writeBufWord j v s
  | .regWord i k => writeRegWord i k v s
  | .reserved => s

/-- A host write to a target: a busy-locked write while BUSY = 1 is dropped and sets OVR (R250). -/
def writeTarget (v : Word) (s : State) (t : Target) : State :=
  if s.busy && busyLocked t then { s with ovr := true } else storeTarget v s t

/-- `HostRead(off)` (R9). -/
def hostRead (off : Nat) (s : State) : Word := readTarget s (targetOf s.build off)

/-- `HostWrite(off, v)` (R9). -/
def hostWrite (off : Nat) (v : Word) (s : State) : State := writeTarget v s (targetOf s.build off)

/-- The offset in the window of a physical address, when it lies there (R60, R61). -/
def windowOffset (b : Build) (addr : Nat) : Option Nat :=
  if b.base ≤ addr ∧ addr < b.base + Config.windowBytes then some (addr - b.base) else none

/-- An access is served: 32 bits, at an offset that is a multiple of 4 (R63). -/
def accessServed (off size : Nat) : Bool := size == 4 && off % 4 == 0

/-- One host read on the bus (R63). A refused read has no effect on the core; its data are a free value (log entry 7). An
address outside the window does not select the core (log entry 2). -/
def busRead (addr size : Nat) (s : State) : State :=
  match windowOffset s.build addr with
  | none => { s with reply := .none }
  | some off =>
    if accessServed off size then { s with reply := .data (hostRead off s) }
    else { s with reply := .readError (Config.refusedReadData s.refusedReads), refusedReads := s.refusedReads + 1 }

/-- One host write on the bus (R63). A refused write has no effect on the core. -/
def busWrite (addr size : Nat) (data : Word) (s : State) : State :=
  match windowOffset s.build addr with
  | none => { s with reply := .none }
  | some off =>
    if accessServed off size then { hostWrite off data s with reply := .written }
    else { s with reply := .writeError }

end Sys2Proof.Machine
end

