-- ==== Sys2Proof/Machine/Engine.lean ====
section
/-! DEFINITION. The command engine's step (R36): decode the pending word and perform it; and what one event of the schedule
does (R70). -/

namespace Sys2Proof.Machine

/-- Perform the word in CMD: an illegal word completes with ILLEGAL_COMMAND before any operand is read (R97, R201, R212). -/
def performPending (s : State) : Host.Outcome State Fault Refusal :=
  match decodeWord s.cmd with
  | .command i => exec i s
  | .illegal _ => .next (raise .illegalCommand s)

/-- The engine's turn: a command is pending exactly when BUSY = 1 (R35). An idle core keeps all its state (R235). -/
def engineTurn (s : State) : Host.Outcome State Fault Refusal := if s.busy then performPending s else .next s

/-- What an event does (R70). -/
def performEvent (e : Event) (s : State) : Host.Outcome State Fault Refusal :=
  match e with
  | .read addr size => .next (busRead addr size s)
  | .write addr size data => .next (busWrite addr size data s)
  | .engine => engineTurn s
  | .hardReset => .next (resetState s)

/-- One event of the sequence: the next scheduled one, taken off the schedule; with nothing scheduled it is the engine's
turn, so a pending command is always performed at last (R36, R260; log entry 3). -/
def advance (s : State) : Host.Outcome State Fault Refusal :=
  match s.schedule with
  | [] => engineTurn s
  | e :: rest => performEvent e { s with schedule := rest }

/-- The state in which the word `c` has been written to CMD and the engine has the next turn (R204). -/
def pend (c : Word) (s : State) : State := { startCommand c s with schedule := .engine :: s.schedule }

end Sys2Proof.Machine
end

