-- ==== Sys2Proof/Machine/Step.lean ====
section
/-! DEFINITION. One step of the machine, and how the host's own check puts a command in front of it. -/

namespace Sys2Proof.Machine

/-- One event of the sequence of R70. -/
def step (s : State) : Host.Outcome State Fault Refusal := advance s

/-- `s` with the command word started as by a CMD write while BUSY = 0 (R204) and the engine's turn next, so that the very
next step performs exactly that command; the events that were scheduled come after it (log entry 4). -/
def State.withFetchWord (s : State) (nbits w : Nat) : State := pend (tableWord nbits w) s

end Sys2Proof.Machine
end

