-- ==== Sys2Proof/Safety.lean ====
section
/-! DEFINITION. The terms claims use: when two states hold the same architectural state, what a legal state is (the
invariant every step keeps), and what the host's scheduled accesses may be. -/

namespace Sys2Proof.Machine

/-- The two states agree on every piece of state the spec gives the machine (R37) and on the build; the model's own fields
(entropy, schedule, reply, refusedReads) may differ. -/
def State.sameCore (s t : State) : Prop :=
  t.build = s.build ∧ t.regs = s.regs ∧ t.buf = s.buf ∧ t.blen = s.blen ∧ t.trials = s.trials ∧
  t.retryLimit = s.retryLimit ∧ t.cmd = s.cmd ∧ t.ie = s.ie ∧ t.busy = s.busy ∧ t.done = s.done ∧ t.err = s.err ∧
  t.prime = s.prime ∧ t.ovr = s.ovr ∧ t.ecode = s.ecode

/-- Every operand register lies in [0, 2^W) (R22). -/
def State.regsInRange (s : State) : Prop := ∀ i : Reg, reg s i < 2 ^ s.build.width

/-- BUF is in canonical form and names no byte at or above BMAX (R31; log entry 9). -/
def State.bufCanonical (s : State) : Prop :=
  Memory.wf s.buf = true ∧ Memory.below s.build.bmax s.buf = true

/-- TRIALS and RETRY_LIMIT are never 0 (R27, R28, R37). -/
def State.limitsNonzero (s : State) : Prop := s.trials ≠ 0#16 ∧ s.retryLimit ≠ 0#32

/-- The flags agree with one another (R26, R32, R204, R205, R208): a pending command has cleared every result flag, ERR is
set exactly when ECODE is not 0, PRIME excludes ERR, and no reserved ECODE stands (R200; 93 I13). -/
def State.flagsConsistent (s : State) : Prop :=
  (s.busy = true → s.done = false ∧ s.err = false ∧ s.prime = false ∧ s.ecode = 0#4) ∧
  (s.err = true ↔ s.ecode ≠ 0#4) ∧ (s.prime = true → s.err = false) ∧ s.ecode.toNat ≤ 4

/-- A legal state: what holds after reset and after every step. -/
def State.Inv (s : State) : Prop :=
  s.regsInRange ∧ s.bufCanonical ∧ s.limitsNonzero ∧ s.flagsConsistent

/-- STATUS speaks of the word in CMD (R26, R200, R202, R203, R206): PRIME only after FERMAT, and each error code only after
a word that can raise it. -/
def State.statusMatchesCommand (s : State) : Prop :=
  (s.prime = true → ∃ rn, decodeWord s.cmd = .command (.fermat rn)) ∧
  (s.ecode = 1#4 → ∃ why, decodeWord s.cmd = .illegal why) ∧
  (s.ecode = 2#4 → ∃ i, decodeWord s.cmd = .command i ∧ (∀ rd, i ≠ .encode rd) ∧ ∀ rs, i ≠ .decode rs) ∧
  (s.ecode = 3#4 → ∃ rd, decodeWord s.cmd = .command (.encode rd)) ∧
  (s.ecode = 4#4 → ∃ rd rlo rhi, decodeWord s.cmd = .command (.primegen rd rlo rhi))

/-- The illegal words of R96, in the bits of the word: a reserved OP, RSV not 0, a "must be 0" field of R92 not 0, or EXTGCD
with F0 = F1. -/
def illegalByR96 (c : Word) : Prop :=
  c.extractLsb' 24 8 = 0x00#8 ∨ 0x08 ≤ (c.extractLsb' 24 8).toNat ∨ c.extractLsb' 0 8 ≠ 0#8 ∨
  (c.extractLsb' 24 8 = 0x03#8 ∧ c.extractLsb' 20 4 = c.extractLsb' 16 4) ∨
  (c.extractLsb' 24 8 = 0x04#8 ∧ (c.extractLsb' 20 4 ≠ 0#4 ∨ c.extractLsb' 12 4 ≠ 0#4 ∨ c.extractLsb' 8 4 ≠ 0#4)) ∨
  (c.extractLsb' 24 8 = 0x05#8 ∧ c.extractLsb' 8 4 ≠ 0#4) ∨
  (c.extractLsb' 24 8 = 0x06#8 ∧ (c.extractLsb' 16 4 ≠ 0#4 ∨ c.extractLsb' 12 4 ≠ 0#4 ∨ c.extractLsb' 8 4 ≠ 0#4)) ∨
  (c.extractLsb' 24 8 = 0x07#8 ∧ (c.extractLsb' 20 4 ≠ 0#4 ∨ c.extractLsb' 12 4 ≠ 0#4 ∨ c.extractLsb' 8 4 ≠ 0#4))

/-- A Fermat liar or a passing witness: `a^(n-1) mod n = 1` (R145, R146). -/
def fermatHolds (n a : Nat) : Bool := a ^ (n - 1) % n == 1

/-! ### What PRIMEGEN's draws are, in terms of the entropy source alone (R150) -/

/-- The candidate drawn at this position of the source. -/
def candidateAt (lo hi : Nat) (e : Entropy) : Nat := (drawCandidate lo hi e).1

/-- The `T` witnesses the source gives after that candidate. -/
def candidateWitnesses (lo hi T : Nat) (e : Entropy) : List Nat := witnesses (candidateAt lo hi e) T (afterDraws 1 e)

/-- Every one of the candidate's `T` witnesses passes (R145). -/
def candidatePasses (lo hi T : Nat) (e : Entropy) : Bool :=
  (candidateWitnesses lo hi T e).all (fermatHolds (candidateAt lo hi e))

/-- How many witnesses are drawn for the candidate: up to the first that fails, at most `T` (R145). -/
def candidateTrials (lo hi T : Nat) (e : Entropy) : Nat :=
  min T ((candidateWitnesses lo hi T e).findIdx (fun a => !fermatHolds (candidateAt lo hi e) a) + 1)

/-- The source after one candidate and the witnesses drawn for it. -/
def afterCandidate (lo hi T : Nat) (e : Entropy) : Entropy := afterDraws (1 + candidateTrials lo hi T e) e

/-- The position at which candidate number `k`, from 0, is drawn. -/
def candidateStart (lo hi T : Nat) : Nat → Entropy → Entropy
  | 0, e => e
  | k + 1, e => afterCandidate lo hi T (candidateStart lo hi T k e)

/-- What one draw asks for (R222). -/
inductive Draw where
  /-- `draw_witness(n)`. -/
  | witness (n : Nat)
  /-- `draw_candidate(lo, hi)`. -/
  | candidate (lo hi : Nat)
  deriving DecidableEq, Repr

/-- The value lies in the range R222 gives the draw. -/
def Draw.admits : Draw → Nat → Prop
  | .witness n, a => 2 ≤ a ∧ a ≤ n - 2
  | .candidate lo hi, c => c % 2 = 1 ∧ lo ≤ c ∧ c ≤ hi

/-- What the draw gives at this position of the source. -/
def Draw.value : Draw → Entropy → Nat
  | .witness n, e => (drawWitness n e).1
  | .candidate lo hi, e => (drawCandidate lo hi e).1

/-! ### The recurrence of EXTGCD (R141) -/

/-- `r` and `t` are the remainders and the coefficients of `b` that R141's loop runs through in `n` iterations: iteration `k`
turns `(old_r, r) = (r k, r (k+1))` and `(old_t, t) = (t k, t (k+1))` into the next pairs, and the loop ends at remainder 0. -/
def extGcdRun (a b n : Nat) (r : Nat → Nat) (t : Nat → Int) : Prop :=
  r 0 = a ∧ r 1 = b ∧ t 0 = 0 ∧ t 1 = 1 ∧
  (∀ k, k < n → r (k + 1) ≠ 0 ∧ r (k + 2) = r k - r k / r (k + 1) * r (k + 1) ∧
    t (k + 2) = t k - ((r k / r (k + 1) : Nat) : Int) * t (k + 1)) ∧
  r (n + 1) = 0

/-! ### Scheduled events -/

/-- A scheduled event that is a host access, neither an engine turn nor a hardware reset. -/
def Event.isHostAccess : Event → Bool
  | .read _ _ => true
  | .write _ _ _ => true
  | .engine => false
  | .hardReset => false

/-- A scheduled event that is a soft reset: a served write to CTRL with bit 31 = 1 (R242). -/
def Event.isSoftReset (b : Build) : Event → Bool
  | .read _ _ => false
  | .write addr size data => windowOffset b addr == some 0x008 && accessServed 0x008 size && data.getLsbD 31
  | .engine => false
  | .hardReset => false

end Sys2Proof.Machine
end

