-- ==== Sys2Proof/Certificates/Slice0/Obligations.lean ====
section
/-! DEFINITION. The statements for the provers. Each says which rule of spec/ it formalises. Where a statement speaks of the
model's own fields (schedule, reply, entropy, refusedReads) its docstring names the log entry. -/

open Sys2Proof Sys2Proof.Machine

/-! ### Reset -/

/-- R241: what reset leaves, for every build: every piece of state, and the words the host then reads. -/
def Obligations.ResetLeavesTheSpecValues : Prop :=
  ∀ b : Build,
    let s := State.resetOf b
    s.build = b ∧ (∀ i : Reg, reg s i = 0) ∧ (∀ j, bufByte s j = 0#8) ∧ s.blen = 0#32 ∧ s.trials = 100#16 ∧
    s.retryLimit = 100000#32 ∧ s.cmd = 0#32 ∧ s.ie = false ∧ s.busy = false ∧ s.done = false ∧ s.err = false ∧
    s.prime = false ∧ s.ovr = false ∧ s.ecode = 0#4 ∧ irq s = false ∧
    hostRead 0x000 s = 0x4D455850#32 ∧
    hostRead 0x004 s = BitVec.ofNat 16 b.bmax ++ 16#8 ++ BitVec.ofNat 8 b.wwords ∧
    hostRead 0x008 s = 0x00000000#32 ∧ hostRead 0x00C s = 0x00000000#32 ∧ hostRead 0x010 s = 0x00000000#32 ∧
    hostRead 0x014 s = 0x00000064#32 ∧ hostRead 0x018 s = 0x000186A0#32 ∧ hostRead 0x01C s = 0x00000000#32

/-- The invariants hold at reset, for every build. `State.reset` is the reset state of one build, the model's choice (log
entries 1 and 2). -/
def Obligations.ResetStateIsLegal : Prop :=
  (∀ b : Build, (State.resetOf b).Inv ∧ (State.resetOf b).statusMatchesCommand) ∧
  State.reset = State.resetOf Config.resetBuild

/-- R242: a CTRL write with bit 31 set gives every piece of state its reset value at once, in every state, busy or not. -/
def Obligations.SoftResetTakesEffectAtOnce : Prop :=
  ∀ (s : State) (v : Word), v.getLsbD 31 = true →
    (State.resetOf s.build).sameCore (hostWrite 0x008 v s) ∧ hostRead 0x008 (hostWrite 0x008 v s) = 0x00000000#32 ∧
    irq (hostWrite 0x008 v s) = false

/-- R240: after the reset input, every piece of state holds its reset value and a pending command is discarded. That the
draws go on where they were and the schedule keeps its rest are the model's choices (log entries 3 and 6). -/
def Obligations.HardwareResetDiscardsEverything : Prop :=
  ∀ (s : State) (rest : List Event), s.schedule = .hardReset :: rest →
    ∃ t, step s = .next t ∧ (State.resetOf s.build).sameCore t ∧ t.schedule = rest ∧ t.entropy = s.entropy

/-! ### Encoding -/

/-- Every well-formed command is what the decoder reads from its word (R91, R92, R94, R97). -/
def Obligations.DecodeInvertsEncode : Prop :=
  ∀ i : Instr, i.wellFormed = true → decodeWord (encodeWord i) = .command i

/-- A word that decodes to a command is that command's only word, and the command is well formed: the decoder drops no bit. -/
def Obligations.EncodeInvertsDecode : Prop :=
  ∀ (c : Word) (i : Instr), decodeWord c = .command i → encodeWord i = c ∧ i.wellFormed = true

/-- R94: a word is command X exactly when its bits under X's mask match (and F0 differs from F1 for EXTGCD); its operands
are the fields of R91 and R92. -/
def Obligations.DecoderAgreesWithTheMasks : Prop :=
  ∀ c : Word,
    (∀ rd ra rb rm : Reg, decodeWord c = .command (.modmul rd ra rb rm) ↔
      c &&& 0xFF0000FF#32 = 0x01000000#32 ∧ (c.extractLsb' 20 4).toNat = rd.val ∧ (c.extractLsb' 16 4).toNat = ra.val ∧
      (c.extractLsb' 12 4).toNat = rb.val ∧ (c.extractLsb' 8 4).toNat = rm.val) ∧
    (∀ rd rbase rexp rmod : Reg, decodeWord c = .command (.modexp rd rbase rexp rmod) ↔
      c &&& 0xFF0000FF#32 = 0x02000000#32 ∧ (c.extractLsb' 20 4).toNat = rd.val ∧
      (c.extractLsb' 16 4).toNat = rbase.val ∧ (c.extractLsb' 12 4).toNat = rexp.val ∧
      (c.extractLsb' 8 4).toNat = rmod.val) ∧
    (∀ rinv rgcd ra rb : Reg, decodeWord c = .command (.extgcd rinv rgcd ra rb) ↔
      c &&& 0xFF0000FF#32 = 0x03000000#32 ∧ c.extractLsb' 20 4 ≠ c.extractLsb' 16 4 ∧
      (c.extractLsb' 20 4).toNat = rinv.val ∧ (c.extractLsb' 16 4).toNat = rgcd.val ∧
      (c.extractLsb' 12 4).toNat = ra.val ∧ (c.extractLsb' 8 4).toNat = rb.val) ∧
    (∀ rn : Reg, decodeWord c = .command (.fermat rn) ↔
      c &&& 0xFFF0FFFF#32 = 0x04000000#32 ∧ (c.extractLsb' 16 4).toNat = rn.val) ∧
    (∀ rd rlo rhi : Reg, decodeWord c = .command (.primegen rd rlo rhi) ↔
      c &&& 0xFF000FFF#32 = 0x05000000#32 ∧ (c.extractLsb' 20 4).toNat = rd.val ∧ (c.extractLsb' 16 4).toNat = rlo.val ∧
      (c.extractLsb' 12 4).toNat = rhi.val) ∧
    (∀ rd : Reg, decodeWord c = .command (.encode rd) ↔
      c &&& 0xFF0FFFFF#32 = 0x06000000#32 ∧ (c.extractLsb' 20 4).toNat = rd.val) ∧
    (∀ rs : Reg, decodeWord c = .command (.decode rs) ↔
      c &&& 0xFFF0FFFF#32 = 0x07000000#32 ∧ (c.extractLsb' 16 4).toNat = rs.val)

/-- R96 and R201: the decoder refuses exactly the illegal words, and performing one writes the STATUS flags and nothing
else. The engine's turn comes with nothing scheduled or as the next event (log entry 3). -/
def Obligations.IllegalWordsCompleteWithIllegalCommand : Prop :=
  (∀ c : Word, illegalByR96 c ↔ ∃ why, decodeWord c = .illegal why) ∧
  ∀ (s : State) (rest : List Event), s.busy = true → illegalByR96 s.cmd →
    (s.schedule = [] ∧ rest = []) ∨ s.schedule = .engine :: rest →
    step s = .next { s with
      schedule := rest, busy := false, done := true, err := true, prime := false, ecode := 1#4 }

/-- R101: the example words of the spec decode as its table says. -/
def Obligations.ExampleWordsDecode : Prop :=
  decodeWord 0x02012300#32 = .command (.modexp 0 1 2 3) ∧ decodeWord 0x01412300#32 = .command (.modmul 4 1 2 3) ∧
  decodeWord 0x039A7800#32 = .command (.extgcd 9 10 7 8) ∧ decodeWord 0x04050000#32 = .command (.fermat 5) ∧
  decodeWord 0x05123000#32 = .command (.primegen 1 2 3) ∧ decodeWord 0x06500000#32 = .command (.encode 5) ∧
  decodeWord 0x07060000#32 = .command (.decode 6) ∧ decodeWord 0x02FFFF00#32 = .command (.modexp 15 15 15 15) ∧
  (∃ why, decodeWord 0x03997800#32 = .illegal why) ∧ (∃ why, decodeWord 0x02012301#32 = .illegal why) ∧
  (∃ why, decodeWord 0x08000000#32 = .illegal why) ∧ ∃ why, decodeWord 0x00000000#32 = .illegal why

/-! ### The step -/

/-- When a command is pending and its word decodes to `i`, the engine's step is `exec i`; and the word the host's check
places is performed by the very next step, as after a CMD write while BUSY = 0 (log entries 3 and 4). -/
def Obligations.StepRunsTheDecodedCommand : Prop :=
  (∀ (s : State) (i : Instr), s.busy = true → decodeWord s.cmd = .command i →
    (s.schedule = [] → step s = exec i s) ∧
    ∀ rest, s.schedule = .engine :: rest → step s = exec i { s with schedule := rest }) ∧
  ∀ (s : State) (w : Nat) (i : Instr), decodeTableWord 32 w = some i →
    step (s.withFetchWord 32 w) = exec i { s with
      cmd := BitVec.ofNat 32 w, busy := true, done := false, err := false, prime := false, ecode := 0#4 }

/-- Between commands the core keeps all its state (R235): an engine turn with BUSY = 0 changes nothing. -/
def Obligations.IdleCoreKeepsItsState : Prop :=
  ∀ s : State, s.busy = false →
    (s.schedule = [] → step s = .next s) ∧
    ∀ rest, s.schedule = .engine :: rest → step s = .next { s with schedule := rest }

/-- No step of the core faults or is refused: it has no trap, and every error is recorded (R207, R213; log entry 19). -/
def Obligations.EveryStepAnswersANextState : Prop := ∀ s : State, ∃ t, step s = .next t

/-- Weak fairness (R260): a pending command is performed, or discarded by a reset, once the scheduled events have run out at
the latest. That a schedule is finite is the model's choice (log entry 3). -/
def Obligations.PendingCommandIsEventuallyPerformed : Prop :=
  ∀ s : State, s.busy = true →
    ∃ (k : Nat) (t : State), k ≤ s.schedule.length + 1 ∧ Host.Core.run Sys2Proof.core k s = .next t ∧ t.busy = false

/-! ### The host window -/

/-- R23 and R24: ID and PARAM read as constants of the build, and writes to them are ignored. -/
def Obligations.IdAndParamAreConstants : Prop :=
  ∀ s : State,
    hostRead 0x000 s = 0x4D455850#32 ∧
    hostRead 0x004 s = BitVec.ofNat 16 s.build.bmax ++ 16#8 ++ BitVec.ofNat 8 s.build.wwords ∧
    ∀ v : Word, hostWrite 0x000 v s = s ∧ hostWrite 0x004 v s = s

/-- R25: CTRL reads IE in bit 0 and 0 elsewhere; a write with bit 31 = 0 only updates IE; with bit 31 = 1 it is a soft
reset; `irq` is IE and DONE; busy or not. -/
def Obligations.CtrlReadsAndWrites : Prop :=
  ∀ (s : State) (v : Word),
    (∀ i, i < 32 → (hostRead 0x008 s).getLsbD i = (decide (i = 0) && s.ie)) ∧
    (v.getLsbD 31 = false → hostWrite 0x008 v s = { s with ie := v.getLsbD 0 }) ∧
    (v.getLsbD 31 = true → (State.resetOf s.build).sameCore (hostWrite 0x008 v s)) ∧
    irq s = (s.ie && s.done) ∧ (∀ b : Build, (State.resetOf b).ie = false)

/-- STATUS reads its flags at the bits of R26 and 0 elsewhere; a host write clears DONE and OVR where the written bit is 1
and changes nothing else, busy or not. -/
def Obligations.StatusReadsAndWrites : Prop :=
  ∀ (s : State) (v : Word),
    (hostRead 0x00C s = 0#20 ++ s.ecode ++ 0#3 ++ BitVec.ofBool s.ovr ++ BitVec.ofBool s.prime ++ BitVec.ofBool s.err ++
      BitVec.ofBool s.done ++ BitVec.ofBool s.busy) ∧
    hostWrite 0x00C v s = { s with done := s.done && !v.getLsbD 1, ovr := s.ovr && !v.getLsbD 4 }

/-- R27 and R28: TRIALS and RETRY_LIMIT read as stored, keep their value on a write of 0, take any other, drop a write while
BUSY = 1, and reset to 100 and 100000. -/
def Obligations.TrialsAndRetryLimitReadAndWrite : Prop :=
  ∀ (s : State) (v : Word),
    hostRead 0x014 s = 0#16 ++ s.trials ∧ hostRead 0x018 s = s.retryLimit ∧
    (s.busy = false → hostWrite 0x014 v s = (if v.extractLsb' 0 16 = 0#16 then s else { s with trials := v.extractLsb' 0 16 })) ∧
    (s.busy = false → hostWrite 0x018 v s = (if v = 0#32 then s else { s with retryLimit := v })) ∧
    (s.busy = true → hostWrite 0x014 v s = { s with ovr := true } ∧ hostWrite 0x018 v s = { s with ovr := true }) ∧
    ∀ b : Build, (State.resetOf b).trials = 100#16 ∧ (State.resetOf b).retryLimit = 100000#32

/-- R30 and R204: a CMD write while BUSY = 0 stores the word and starts its command in one update; while BUSY = 1 it is
dropped; a read returns the last word stored. -/
def Obligations.CommandStart : Prop :=
  ∀ (s : State) (c : Word),
    (s.busy = false →
      hostWrite 0x010 c s =
        { s with cmd := c, busy := true, done := false, err := false, prime := false, ecode := 0#4 } ∧
      hostRead 0x010 (hostWrite 0x010 c s) = c ∧ irq (hostWrite 0x010 c s) = false) ∧
    (s.busy = true → hostWrite 0x010 c s = { s with ovr := true }) ∧
    hostRead 0x010 s = s.cmd

/-- BLEN stores any 32-bit value while BUSY = 0 and drops a write while BUSY = 1 (R29). -/
def Obligations.BlenStoresAnyWord : Prop :=
  ∀ (s : State) (v : Word),
    hostRead 0x01C s = s.blen ∧ (s.busy = false → hostWrite 0x01C v s = { s with blen := v }) ∧
    (s.busy = true → hostWrite 0x01C v s = { s with ovr := true })

/-- R250: the busy lock. The locked writes while BUSY = 1 change nothing but OVR; CTRL and STATUS take writes at any time;
the ignored offsets change nothing at any time, OVR among it; reads are served whatever BUSY is. -/
def Obligations.BusyLockDropsWritesAndSetsOverrun : Prop :=
  ∀ (s : State) (v : Word),
    (s.busy = true →
      hostWrite 0x010 v s = { s with ovr := true } ∧ hostWrite 0x014 v s = { s with ovr := true } ∧
      hostWrite 0x018 v s = { s with ovr := true } ∧ hostWrite 0x01C v s = { s with ovr := true } ∧
      (∀ j, j < s.build.bmax / 4 → hostWrite (0x800 + 4 * j) v s = { s with ovr := true }) ∧
      ∀ (i : Reg) (k : Nat), k < s.build.wwords →
        hostWrite (0x1000 + 0x100 * i.val + 4 * k) v s = { s with ovr := true }) ∧
    (v.getLsbD 31 = false → hostWrite 0x008 v s = { s with ie := v.getLsbD 0 }) ∧
    (v.getLsbD 31 = true → (State.resetOf s.build).sameCore (hostWrite 0x008 v s)) ∧
    hostWrite 0x00C v s = { s with done := s.done && !v.getLsbD 1, ovr := s.ovr && !v.getLsbD 4 } ∧
    hostWrite 0x000 v s = s ∧ hostWrite 0x004 v s = s ∧
    (∀ off, off % 4 = 0 → (0x020 ≤ off ∧ off < 0x800) ∨ (0x900 ≤ off ∧ off < 0x1000) → hostWrite off v s = s) ∧
    (∀ j, s.build.bmax / 4 ≤ j → j < 64 → hostWrite (0x800 + 4 * j) v s = s) ∧
    (∀ (i : Reg) (k : Nat), s.build.wwords ≤ k → k < 64 → hostWrite (0x1000 + 0x100 * i.val + 4 * k) v s = s) ∧
    ∀ (off : Nat) (b : Bool), off ≠ 0x00C → hostRead off { s with busy := b } = hostRead off s

/-- R34: reserved bits read 0 and writes to them are ignored; the unmapped offsets of R62 read 0 and ignore writes. -/
def Obligations.ReservedBitsAndOffsetsReadZero : Prop :=
  ∀ s : State,
    (∀ i, 1 ≤ i → i < 32 → (hostRead 0x008 s).getLsbD i = false) ∧
    (∀ i, (5 ≤ i ∧ i ≤ 7) ∨ (12 ≤ i ∧ i < 32) → (hostRead 0x00C s).getLsbD i = false) ∧
    (∀ i, 16 ≤ i → i < 32 → (hostRead 0x014 s).getLsbD i = false) ∧
    (∀ v w : Word, v.getLsbD 0 = w.getLsbD 0 → v.getLsbD 31 = w.getLsbD 31 → hostWrite 0x008 v s = hostWrite 0x008 w s) ∧
    (∀ v w : Word, v.getLsbD 1 = w.getLsbD 1 → v.getLsbD 4 = w.getLsbD 4 → hostWrite 0x00C v s = hostWrite 0x00C w s) ∧
    (∀ v w : Word, v.extractLsb' 0 16 = w.extractLsb' 0 16 → hostWrite 0x014 v s = hostWrite 0x014 w s) ∧
    ∀ off, off % 4 = 0 → (0x020 ≤ off ∧ off < 0x800) ∨ (0x900 ≤ off ∧ off < 0x1000) →
      hostRead off s = 0#32 ∧ ∀ v, hostWrite off v s = s

/-- R64: word k of operand register i. A read gives its 32 bits; a write while BUSY = 0 gives the register the value of the
rule, changes only that word and only that register; words at or above WWORDS read 0 and ignore writes. -/
def Obligations.RegisterWindowReadsAndWritesOneWord : Prop :=
  ∀ (s : State) (i : Reg) (k : Nat) (v : Word), k < 64 →
    let off := 0x1000 + 0x100 * i.val + 4 * k
    (k < s.build.wwords → (hostRead off s).toNat = reg s i / 2 ^ (32 * k) % 2 ^ 32) ∧
    (s.build.wwords ≤ k → hostRead off s = 0#32 ∧ hostWrite off v s = s) ∧
    (k < s.build.wwords → s.busy = false →
      hostWrite off v s =
        setReg i (reg s i - reg s i / 2 ^ (32 * k) % 2 ^ 32 * 2 ^ (32 * k) + v.toNat * 2 ^ (32 * k)) s ∧
      (∀ k', reg (hostWrite off v s) i / 2 ^ (32 * k') % 2 ^ 32 =
        if k' = k then v.toNat else reg s i / 2 ^ (32 * k') % 2 ^ 32) ∧
      ∀ i' : Reg, i' ≠ i → reg (hostWrite off v s) i' = reg s i')

/-- R65: word j of BUF, with the lowest-numbered byte in bits [7:0]. The byte values after a write are read from a BUF in
canonical form (log entry 9). -/
def Obligations.BufWindowReadsAndWritesFourBytes : Prop :=
  ∀ (s : State) (j : Nat) (v : Word), j < 64 →
    let off := 0x800 + 4 * j
    (j < s.build.bmax / 4 →
      hostRead off s = bufByte s (4 * j + 3) ++ bufByte s (4 * j + 2) ++ bufByte s (4 * j + 1) ++ bufByte s (4 * j)) ∧
    (s.build.bmax / 4 ≤ j → hostRead off s = 0#32 ∧ hostWrite off v s = s) ∧
    (j < s.build.bmax / 4 → s.busy = false → s.bufCanonical →
      hostWrite off v s = { s with buf := (hostWrite off v s).buf } ∧
      bufByte (hostWrite off v s) (4 * j) = v.extractLsb' 0 8 ∧
      bufByte (hostWrite off v s) (4 * j + 1) = v.extractLsb' 8 8 ∧
      bufByte (hostWrite off v s) (4 * j + 2) = v.extractLsb' 16 8 ∧
      bufByte (hostWrite off v s) (4 * j + 3) = v.extractLsb' 24 8 ∧
      ∀ a, a < 4 * j ∨ 4 * j + 4 ≤ a → bufByte (hostWrite off v s) a = bufByte s a)

/-- One host access on the bus (R63, R68): an aligned 32-bit access at an offset of the window is served; any other access in
the window is refused, has no effect on the core, and answers a bus error; a read never changes the core. The reply is the
model's own field (log entries 7 and 8). That a write which the core ignores or drops answers like any other served write
is the model's inference (log entry 20). -/
def Obligations.BusServesAlignedWordsAndRefusesTheRest : Prop :=
  ∀ (s : State) (rest : List Event) (off size : Nat) (v : Word), off < 0x2000 →
    let addr := s.build.base + off
    let s₀ : State := { s with schedule := rest }
    (s.schedule = .read addr size :: rest →
      (size = 4 → off % 4 = 0 → step s = .next { s₀ with reply := .data (hostRead off s) }) ∧
      (size ≠ 4 ∨ off % 4 ≠ 0 → ∃ t w, step s = .next t ∧ s.sameCore t ∧ t.schedule = rest ∧ t.reply = .readError w)) ∧
    (s.schedule = .write addr size v :: rest →
      (size = 4 → off % 4 = 0 → step s = .next { hostWrite off v s₀ with reply := .written }) ∧
      (size ≠ 4 ∨ off % 4 ≠ 0 → step s = .next { s₀ with reply := .writeError }))

/-- While a command is pending, no sequence of host accesses short of a soft reset changes an operand, the buffer, a control
value or the command, and STATUS reads BUSY = 1 throughout: the engine never sees a half-written operand (R36, R67, R69,
R252). -/
def Obligations.OperandsHoldWhileACommandIsPending : Prop :=
  ∀ (k : Nat) (s t : State), s.busy = true → k ≤ s.schedule.length →
    (∀ e ∈ s.schedule.take k, e.isHostAccess = true ∧ e.isSoftReset s.build = false) →
    Host.Core.run Sys2Proof.core k s = .next t →
    t.busy = true ∧ (hostRead 0x00C t).getLsbD 0 = true ∧ t.build = s.build ∧ t.regs = s.regs ∧ t.buf = s.buf ∧
    t.blen = s.blen ∧ t.trials = s.trials ∧ t.retryLimit = s.retryLimit ∧ t.cmd = s.cmd ∧ t.err = s.err ∧
    t.prime = s.prime ∧ t.ecode = s.ecode ∧ t.entropy = s.entropy

/-- R211: what lowers and what raises `irq`. -/
def Obligations.InterruptClearsAndRises : Prop :=
  ∀ (s : State) (v : Word),
    irq s = (s.ie && s.done) ∧
    (v.getLsbD 1 = true → irq (hostWrite 0x00C v s) = false) ∧
    (s.busy = false → irq (hostWrite 0x010 v s) = false) ∧
    (v.getLsbD 0 = false → irq (hostWrite 0x008 v s) = false) ∧
    (v.getLsbD 31 = true → irq (hostWrite 0x008 v s) = false) ∧
    irq (resetState s) = false ∧
    (v.getLsbD 31 = false → v.getLsbD 0 = true → s.done = true → irq (hostWrite 0x008 v s) = true)

/-! ### The commands -/

/-- R121: MODMUL. Its result is the exact product reduced once; a zero modulus raises ARITH_PRECONDITION and writes nothing;
a word with its OP and RSV not 0 is illegal. -/
def Obligations.ModmulResult : Prop :=
  ∀ (rd ra rb rm : Reg) (s : State),
    (reg s rm ≠ 0 →
      exec (.modmul rd ra rb rm) s = .next { s with
        regs := s.regs.set rd.val ((reg s ra * reg s rb) % reg s rm) rd.isLt
        busy := false, done := true, err := false, prime := false, ecode := 0#4 }) ∧
    (reg s rm = 0 →
      exec (.modmul rd ra rb rm) s =
        .next { s with busy := false, done := true, err := true, prime := false, ecode := 2#4 }) ∧
    ∀ c : Word, c.extractLsb' 24 8 = 0x01#8 → c.extractLsb' 0 8 ≠ 0#8 → ∃ why, decodeWord c = .illegal why

/-- R125, R127 and R128: MODEXP. Its result is the exact power reduced, so exponent 0 with modulus 1 gives 0; a zero modulus
raises ARITH_PRECONDITION and writes nothing; a word with its OP and RSV not 0 is illegal. -/
def Obligations.ModexpResult : Prop :=
  (∀ (rd rbase rexp rmod : Reg) (s : State),
    (reg s rmod ≠ 0 →
      exec (.modexp rd rbase rexp rmod) s = .next { s with
        regs := s.regs.set rd.val (reg s rbase ^ reg s rexp % reg s rmod) rd.isLt
        busy := false, done := true, err := false, prime := false, ecode := 0#4 }) ∧
    (reg s rmod = 0 →
      exec (.modexp rd rbase rexp rmod) s =
        .next { s with busy := false, done := true, err := true, prime := false, ecode := 2#4 })) ∧
  (∀ b e m : Nat, 1 ≤ m → modexp b e m = b ^ e % m ∧ modexp b e m = modexp (b % m) e m) ∧
  ∀ c : Word, c.extractLsb' 24 8 = 0x02#8 → c.extractLsb' 0 8 ≠ 0#8 → ∃ why, decodeWord c = .illegal why

/-- R140: EXTGCD writes the pair of R141's recurrence, whatever the gcd is: for the remainders and coefficients that the
recurrence runs through, step by step, it is the last coefficient reduced modulo `a` and the last nonzero remainder; `a = 0` raises ARITH_PRECONDITION and writes
nothing; equal destinations or RSV not 0 are illegal. The corner cases b = 0, b = a, a = 1 and b >= a (the gcd is that of
`b mod a`, and so is the inverse when it is 1) are those of the rule. -/
def Obligations.ExtgcdResult : Prop :=
  (∀ (rinv rgcd ra rb : Reg) (s : State), rinv ≠ rgcd →
    (reg s ra ≠ 0 →
      exec (.extgcd rinv rgcd ra rb) s = .next { s with
        regs := (s.regs.set rinv.val (extGcd (reg s ra) (reg s rb)).1 rinv.isLt).set rgcd.val
          (extGcd (reg s ra) (reg s rb)).2 rgcd.isLt
        busy := false, done := true, err := false, prime := false, ecode := 0#4 }) ∧
    (reg s ra = 0 →
      exec (.extgcd rinv rgcd ra rb) s =
        .next { s with busy := false, done := true, err := true, prime := false, ecode := 2#4 })) ∧
  (∀ a : Nat, 1 ≤ a → extGcd a 0 = (0, a) ∧ extGcd a a = (1 % a, a)) ∧ (∀ b : Nat, extGcd 1 b = (0, 1)) ∧
  (∀ a b : Nat, 1 ≤ a → (extGcd a (b % a)).2 = (extGcd a b).2 ∧
    ((extGcd a b).2 = 1 → (extGcd a (b % a)).1 = (extGcd a b).1)) ∧
  (∀ (a b n : Nat) (r : Nat → Nat) (t : Nat → Int), 1 ≤ a → extGcdRun a b n r t →
    extGcd a b = ((t n % (a : Int)).toNat, r n)) ∧
  ∀ c : Word, c.extractLsb' 24 8 = 0x03#8 → c.extractLsb' 0 8 ≠ 0#8 ∨ c.extractLsb' 20 4 = c.extractLsb' 16 4 →
    ∃ why, decodeWord c = .illegal why

/-- R142, laws 1 to 6; the last two clauses say that R141's loop, the model's and the recurrence itself, ends within b + 1
iterations. -/
def Obligations.ExtgcdLaws : Prop :=
  ∀ a b : Nat, 1 ≤ a →
    let inv := (extGcd a b).1
    let g := (extGcd a b).2
    g = Nat.gcd a b ∧ 1 ≤ g ∧ g ≤ a ∧ inv < a ∧ inv * b % a = g % a ∧ (g = 1 → 2 ≤ a → inv * b % a = 1) ∧
    (∀ w, a < 2 ^ w → inv < 2 ^ w ∧ g < 2 ^ w) ∧
    (∀ k, b + 1 ≤ k → extGcdLoop k a b 0 1 = extGcdLoop (b + 1) a b 0 1) ∧
    ∃ n r t, n ≤ b + 1 ∧ extGcdRun a b n r t

/-- R144 and R145: FERMAT. For an odd n > 3, PRIME is set exactly when every one of the TRIALS witnesses drawn passes; the
draws stop at the first failing trial; no register is written. Otherwise ARITH_PRECONDITION, with no draw. A word with its
OP and a must-be-0 field or RSV not 0 is illegal. The entropy field is the model's own (log entry 5). -/
def Obligations.FermatResult : Prop :=
  (∀ (rn : Reg) (s : State),
    let n := reg s rn
    let ws := witnesses n s.trials.toNat s.entropy
    (3 < n → n % 2 = 1 →
      exec (.fermat rn) s = .next { s with
        entropy := afterDraws (min s.trials.toNat (ws.findIdx (fun a => !fermatHolds n a) + 1)) s.entropy
        busy := false, done := true, err := false, prime := ws.all (fun a => fermatHolds n a), ecode := 0#4 } ∧
      ws.length = s.trials.toNat ∧ ∀ a ∈ ws, 2 ≤ a ∧ a ≤ n - 2) ∧
    (n ≤ 3 ∨ n % 2 = 0 →
      exec (.fermat rn) s =
        .next { s with busy := false, done := true, err := true, prime := false, ecode := 2#4 })) ∧
  ∀ c : Word, c.extractLsb' 24 8 = 0x04#8 →
    c.extractLsb' 20 4 ≠ 0#4 ∨ c.extractLsb' 12 4 ≠ 0#4 ∨ c.extractLsb' 8 4 ≠ 0#4 ∨ c.extractLsb' 0 8 ≠ 0#8 →
    ∃ why, decodeWord c = .illegal why

/-- R146, laws 1 to 3, over every state, so under every sequence of draws (log entry 5): a prime always passes, and each
witness of it is coprime with it; a composite passes exactly when every witness drawn is a liar; one without liars never
passes (9 and 27 among them), one with a liar can (561, all of whose coprime witnesses are liars); a verdict of 0 is always
right, so a verdict of 1 does not prove n prime. -/
def Obligations.FermatVerdictsAreSound : Prop :=
  (∀ (rn : Reg) (s t : State), 3 < reg s rn → reg s rn % 2 = 1 → exec (.fermat rn) s = .next t →
    (Nat.Prime (reg s rn) → t.prime = true) ∧
    (¬ Nat.Prime (reg s rn) →
      (t.prime = true ↔ ∀ a ∈ witnesses (reg s rn) s.trials.toNat s.entropy, fermatHolds (reg s rn) a = true)) ∧
    (s.trials ≠ 0#16 → (∀ a, 2 ≤ a → a ≤ reg s rn - 2 → fermatHolds (reg s rn) a = false) → t.prime = false) ∧
    (t.prime = false → ¬ Nat.Prime (reg s rn))) ∧
  (∀ n a, Nat.Prime n → 2 ≤ a → a ≤ n - 2 → Nat.Coprime a n ∧ fermatHolds n a = true) ∧
  (∀ n, n = 9 ∨ n = 27 → ∀ a, 2 ≤ a → a ≤ n - 2 → fermatHolds n a = false) ∧
  (∀ (rn : Reg) (s : State) (a : Nat), 3 < reg s rn → reg s rn % 2 = 1 → 2 ≤ a → a ≤ reg s rn - 2 →
    fermatHolds (reg s rn) a = true →
    ∃ (e : Entropy) (t : State), exec (.fermat rn) { s with entropy := e } = .next t ∧ t.prime = true) ∧
  ∀ a, 2 ≤ a → a ≤ 559 → Nat.Coprime a 561 → fermatHolds 561 a = true

/-- R150 and R206: PRIMEGEN. On a legal range it draws candidates until one passes, at most RETRY_LIMIT of them: when
candidate `k` passes and each before it failed a trial, candidate `k` is written; when RETRY_LIMIT candidates were drawn and
each failed a trial, it ends with GENERATION_EXHAUSTED. The draws taken are exactly those candidates and their witnesses. On
any other range ARITH_PRECONDITION, with no draw. A word with its OP and F3 or RSV not 0 is illegal. The entropy field is the
model's own (log entry 5), and the range is tested as R150's pseudocode tests it (log entry 18). -/
def Obligations.PrimegenResult : Prop :=
  (∀ (rd rlo rhi : Reg) (s : State),
    let lo := reg s rlo
    let hi := reg s rhi
    let T := s.trials.toNat
    let L := s.retryLimit.toNat
    let start := fun k => candidateStart lo hi T k s.entropy
    (5 ≤ lo → lo ≤ hi → (lo < hi ∨ lo % 2 = 1) →
      (∀ k, k < L → (∀ j, j < k → candidatePasses lo hi T (start j) = false) → candidatePasses lo hi T (start k) = true →
        exec (.primegen rd rlo rhi) s = .next { s with
          regs := s.regs.set rd.val (candidateAt lo hi (start k)) rd.isLt, entropy := afterDraws (1 + T) (start k)
          busy := false, done := true, err := false, prime := false, ecode := 0#4 }) ∧
      ((∀ j, j < L → candidatePasses lo hi T (start j) = false) →
        exec (.primegen rd rlo rhi) s = .next { s with
          entropy := start L, busy := false, done := true, err := true, prime := false, ecode := 4#4 })) ∧
    (lo < 5 ∨ hi < lo ∨ (lo = hi ∧ lo % 2 = 0) →
      exec (.primegen rd rlo rhi) s =
        .next { s with busy := false, done := true, err := true, prime := false, ecode := 2#4 })) ∧
  ∀ c : Word, c.extractLsb' 24 8 = 0x05#8 → c.extractLsb' 8 4 ≠ 0#4 ∨ c.extractLsb' 0 8 ≠ 0#8 →
    ∃ why, decodeWord c = .illegal why

/-- On a range whose odd members are all prime, PRIMEGEN completes with one of them, whatever is drawn (R151 law 3). -/
def Obligations.PrimegenSucceedsOnPrimes : Prop :=
  ∀ (rd rlo rhi : Reg) (s : State),
    5 ≤ reg s rlo → reg s rlo ≤ reg s rhi → (reg s rlo < reg s rhi ∨ reg s rlo % 2 = 1) → s.retryLimit ≠ 0#32 →
    (∀ c, c % 2 = 1 → reg s rlo ≤ c → c ≤ reg s rhi → Nat.Prime c) →
    ∃ (c : Nat) (e : Entropy), Nat.Prime c ∧ reg s rlo ≤ c ∧ c ≤ reg s rhi ∧
      exec (.primegen rd rlo rhi) s = .next { s with
        regs := s.regs.set rd.val c rd.isLt, entropy := e
        busy := false, done := true, err := false, prime := false, ecode := 0#4 }

/-- R151, laws 1 to 3, with R206. On success the value written is an odd candidate of the range, the one drawn last, whose T
witnesses all passed, and each candidate before it failed a trial. GENERATION_EXHAUSTED comes after exactly L candidates,
each of which failed a trial. At most L candidates and at most L * T witnesses are drawn, each count bounded by itself. A
range that holds an odd composite can end with GENERATION_EXHAUSTED, and one that holds only primes cannot. The entropy
field is the model's own (log entry 5). -/
def Obligations.PrimegenLaws : Prop :=
  ∀ (rd rlo rhi : Reg) (s : State),
    let lo := reg s rlo
    let hi := reg s rhi
    let T := s.trials.toNat
    let L := s.retryLimit.toNat
    let start := fun k => candidateStart lo hi T k s.entropy
    let failsAt := fun k => ∃ a ∈ candidateWitnesses lo hi T (start k), fermatHolds (candidateAt lo hi (start k)) a = false
    5 ≤ lo → lo ≤ hi → (lo < hi ∨ lo % 2 = 1) →
    (∀ t, exec (.primegen rd rlo rhi) s = .next t →
      (t.err = false → ∃ k, k < L ∧ (∀ j, j < k → failsAt j) ∧
        reg t rd = candidateAt lo hi (start k) ∧ reg t rd % 2 = 1 ∧ lo ≤ reg t rd ∧ reg t rd ≤ hi ∧
        (∀ a ∈ candidateWitnesses lo hi T (start k), fermatHolds (reg t rd) a = true) ∧
        t.entropy = afterDraws (1 + T) (start k)) ∧
      (t.err = true → t.ecode = 4#4 ∧ (∀ j, j < L → failsAt j) ∧ t.entropy = start L) ∧
      (∃ candidates, candidates ≤ L ∧ t.entropy = start candidates ∧
        ∑ j ∈ Finset.range candidates, candidateTrials lo hi T (start j) ≤ L * T ∧
        t.entropy =
          afterDraws (candidates + ∑ j ∈ Finset.range candidates, candidateTrials lo hi T (start j)) s.entropy) ∧
      ((∀ c, c % 2 = 1 → lo ≤ c → c ≤ hi → Nat.Prime c) → s.retryLimit ≠ 0#32 → t.ecode ≠ 4#4)) ∧
    (s.trials ≠ 0#16 → (∃ c, c % 2 = 1 ∧ lo ≤ c ∧ c ≤ hi ∧ ¬ Nat.Prime c) →
      ∃ (e : Entropy) (t : State), exec (.primegen rd rlo rhi) { s with entropy := e } = .next t ∧ t.ecode = 4#4)

/-- R222: every draw lies in its range, and every sequence of values in range, witnesses and candidates mixed in any order
and each with its own n or range, is what some entropy source gives: the draws are constrained by their range and by
nothing else (log entry 5). -/
def Obligations.DrawsAreFreeWithinTheirRange : Prop :=
  (∀ (n : Nat) (e : Entropy), 5 ≤ n → (Draw.witness n).admits ((Draw.witness n).value e)) ∧
  (∀ (lo hi : Nat) (e : Entropy), lo ≤ hi → (lo < hi ∨ lo % 2 = 1) →
    (Draw.candidate lo hi).admits ((Draw.candidate lo hi).value e)) ∧
  (∀ ds : List (Draw × Nat), (∀ d ∈ ds, d.1.admits d.2) →
    ∃ e : Entropy, ∀ k (h : k < ds.length), ds[k].1.value (afterDraws k e) = ds[k].2) ∧
  ∀ (n : Nat) (ws : List Nat), (∀ a ∈ ws, 2 ≤ a ∧ a ≤ n - 2) → ∃ e : Entropy, witnesses n ws.length e = ws

/-- R170 and R171: ENCODE writes the sum of the block's bytes times powers of 256; a block longer than BMAX or holding a zero
byte raises INVALID_INPUT and writes nothing; BUF and BLEN are never written. A word with its OP and a must-be-0 field or
RSV not 0 is illegal. -/
def Obligations.EncodeResult : Prop :=
  (∀ (rd : Reg) (s : State),
    (s.blen.toNat ≤ s.build.bmax → (∀ j, j < s.blen.toNat → bufByte s j ≠ 0#8) →
      exec (.encode rd) s = .next { s with
        regs := s.regs.set rd.val (∑ j ∈ Finset.range s.blen.toNat, (bufByte s j).toNat * 256 ^ j) rd.isLt
        busy := false, done := true, err := false, prime := false, ecode := 0#4 } ∧
      ∑ j ∈ Finset.range s.blen.toNat, (bufByte s j).toNat * 256 ^ j < 2 ^ s.build.width) ∧
    (s.build.bmax < s.blen.toNat ∨ (∃ j, j < s.blen.toNat ∧ bufByte s j = 0#8) →
      exec (.encode rd) s =
        .next { s with busy := false, done := true, err := true, prime := false, ecode := 3#4 })) ∧
  ∀ c : Word, c.extractLsb' 24 8 = 0x06#8 →
    c.extractLsb' 16 4 ≠ 0#4 ∨ c.extractLsb' 12 4 ≠ 0#4 ∨ c.extractLsb' 8 4 ≠ 0#4 ∨ c.extractLsb' 0 8 ≠ 0#8 →
    ∃ why, decodeWord c = .illegal why

/-- R175 and R176: DECODE writes to BUF the bytes the source's formula extracts, up to the first zero byte, zeroes the rest
of BUF, and sets BLEN to their number; no operand register is written and no error is raised. The value is one a register
holds. A word with its OP and a must-be-0 field or RSV not 0 is illegal. -/
def Obligations.DecodeResult : Prop :=
  (∀ (rs : Reg) (s : State), reg s rs < 2 ^ s.build.width →
    let v := reg s rs
    ∃ t, exec (.decode rs) s = .next t ∧
      t = { s with
        buf := t.buf, blen := t.blen, busy := false, done := true, err := false, prime := false, ecode := 0#4 } ∧
      t.blen.toNat ≤ s.build.bmax ∧
      (∀ j, j < t.blen.toNat →
        (bufByte t j).toNat = (v % 256 ^ (j + 1) - v % 256 ^ j) / 256 ^ j ∧ bufByte t j ≠ 0#8) ∧
      (v % 256 ^ (t.blen.toNat + 1) - v % 256 ^ t.blen.toNat) / 256 ^ t.blen.toNat = 0 ∧
      ∀ j, t.blen.toNat ≤ j → bufByte t j = 0#8) ∧
  (∀ v i : Nat, (v % 256 ^ (i + 1) - v % 256 ^ i) / 256 ^ i = v / 2 ^ (8 * i) % 256) ∧
  ∀ c : Word, c.extractLsb' 24 8 = 0x07#8 →
    c.extractLsb' 20 4 ≠ 0#4 ∨ c.extractLsb' 12 4 ≠ 0#4 ∨ c.extractLsb' 8 4 ≠ 0#4 ∨ c.extractLsb' 0 8 ≠ 0#8 →
    ∃ why, decodeWord c = .illegal why

/-- The round trips of R178, laws 1 and 2: DECODE of ENCODE gives the block back; ENCODE of DECODE gives the value of the
bytes below the lowest zero byte, which is the value itself exactly when every byte below its highest nonzero byte is
nonzero. -/
def Obligations.CodecRoundTrips : Prop :=
  (∀ (r : Reg) (s : State), s.blen.toNat ≤ s.build.bmax → (∀ j, j < s.blen.toNat → bufByte s j ≠ 0#8) →
    ∃ t u, exec (.encode r) s = .next t ∧ exec (.decode r) t = .next u ∧ u.blen = s.blen ∧
      ∀ j, j < s.blen.toNat → bufByte u j = bufByte s j) ∧
  ∀ (rs rd : Reg) (s : State), reg s rs < 2 ^ s.build.width →
    ∃ t u, exec (.decode rs) s = .next t ∧ exec (.encode rd) t = .next u ∧
      reg u rd = reg s rs % 256 ^ t.blen.toNat ∧
      (∀ j, j < t.blen.toNat → reg s rs / 256 ^ j % 256 ≠ 0) ∧ reg s rs / 256 ^ t.blen.toNat % 256 = 0 ∧
      (reg u rd = reg s rs ↔ ∀ i j, i < j → reg s rs / 256 ^ j % 256 ≠ 0 → reg s rs / 256 ^ i % 256 ≠ 0)

/-- The window's two layouts agree with the codec (R66): after ENCODE, word j of Rd equals word j of BUF wherever the whole
word lies in the block. -/
def Obligations.EncodedWordsMatchTheBufferWords : Prop :=
  ∀ (rd : Reg) (s : State) (j : Nat),
    s.blen.toNat ≤ s.build.bmax → (∀ i, i < s.blen.toNat → bufByte s i ≠ 0#8) → 4 * j + 3 < s.blen.toNat →
    ∃ t, exec (.encode rd) s = .next t ∧ hostRead (0x1000 + 0x100 * rd.val + 4 * j) t = hostRead (0x800 + 4 * j) t

/-! ### Frames -/

/-- The frame of the commands with one destination register, MODMUL, MODEXP, PRIMEGEN and ENCODE: only Rd and the flags of
R26 less OVR can change (and, for PRIMEGEN, the draws taken). -/
def Obligations.OneDestinationCommandsFrame : Prop :=
  ∀ (i : Instr) (rd : Reg) (s t : State),
    (∃ ra rb rm, i = .modmul rd ra rb rm) ∨ (∃ rbase rexp rmod, i = .modexp rd rbase rexp rmod) ∨
      (∃ rlo rhi, i = .primegen rd rlo rhi) ∨ i = .encode rd →
    exec i s = .next t →
    (∀ r : Reg, r ≠ rd → reg t r = reg s r) ∧ (∀ j, bufByte t j = bufByte s j) ∧ t.blen = s.blen ∧
    t.trials = s.trials ∧ t.retryLimit = s.retryLimit ∧ t.cmd = s.cmd ∧ t.ie = s.ie ∧ t.ovr = s.ovr ∧
    t.build = s.build ∧ t.schedule = s.schedule ∧ t.reply = s.reply ∧ t.refusedReads = s.refusedReads ∧
    ((∀ rlo rhi, i ≠ .primegen rd rlo rhi) → t.entropy = s.entropy)

/-- The frame of EXTGCD: only Rinv, Rgcd and the flags less OVR can change. -/
def Obligations.ExtgcdFrame : Prop :=
  ∀ (rinv rgcd ra rb : Reg) (s t : State), exec (.extgcd rinv rgcd ra rb) s = .next t →
    (∀ r : Reg, r ≠ rinv → r ≠ rgcd → reg t r = reg s r) ∧ (∀ j, bufByte t j = bufByte s j) ∧ t.blen = s.blen ∧
    t.trials = s.trials ∧ t.retryLimit = s.retryLimit ∧ t.cmd = s.cmd ∧ t.ie = s.ie ∧ t.ovr = s.ovr ∧
    t.build = s.build ∧ t.schedule = s.schedule ∧ t.reply = s.reply ∧ t.refusedReads = s.refusedReads ∧
    t.entropy = s.entropy

/-- The frame of FERMAT: no operand register, no BUF byte and no control register changes; only the flags less OVR and the
draws taken. -/
def Obligations.FermatFrame : Prop :=
  ∀ (rn : Reg) (s t : State), exec (.fermat rn) s = .next t →
    (∀ r : Reg, reg t r = reg s r) ∧ (∀ j, bufByte t j = bufByte s j) ∧ t.blen = s.blen ∧
    t.trials = s.trials ∧ t.retryLimit = s.retryLimit ∧ t.cmd = s.cmd ∧ t.ie = s.ie ∧ t.ovr = s.ovr ∧
    t.build = s.build ∧ t.schedule = s.schedule ∧ t.reply = s.reply ∧ t.refusedReads = s.refusedReads

/-- The frame of DECODE: only BUF below BMAX, BLEN and the flags less OVR can change; in a legal state, every byte at or above
BMAX reads as before. -/
def Obligations.DecodeFrame : Prop :=
  ∀ (rs : Reg) (s t : State), exec (.decode rs) s = .next t →
    (∀ r : Reg, reg t r = reg s r) ∧
    (s.bufCanonical → ∀ j, s.build.bmax ≤ j → bufByte t j = bufByte s j) ∧
    t.trials = s.trials ∧ t.retryLimit = s.retryLimit ∧ t.cmd = s.cmd ∧ t.ie = s.ie ∧ t.ovr = s.ovr ∧
    t.build = s.build ∧ t.schedule = s.schedule ∧ t.reply = s.reply ∧ t.refusedReads = s.refusedReads ∧
    t.entropy = s.entropy

/-- R205: a command that ends with an error writes STATUS and nothing else, for every command and operands. The draws it
took are the model's own field (log entry 5). -/
def Obligations.ErrorCompletionIsPrecise : Prop :=
  ∀ (i : Instr) (s t : State), exec i s = .next t → t.err = true →
    t = { s with
      busy := false, done := true, err := true, prime := false, ecode := t.ecode, entropy := t.entropy } ∧
    1 ≤ t.ecode.toNat ∧ t.ecode.toNat ≤ 4

/-- R208 and the codes each command can end with (R200, R202, R203, R206): every command ends with BUSY = 0 and DONE = 1, ERR
exactly when ECODE is not 0, PRIME only from FERMAT, and the error codes of the tables only. Code 1 can only come from
an EXTGCD with equal destinations, which no word decodes to (log entry 10). -/
def Obligations.CompletionFlagsAndErrorCodes : Prop :=
  ∀ (i : Instr) (s t : State), exec i s = .next t →
    t.busy = false ∧ t.done = true ∧ (t.err = true ↔ t.ecode ≠ 0#4) ∧
    (t.prime = true → t.err = false ∧ ∃ rn, i = .fermat rn) ∧ t.ecode.toNat ≤ 4 ∧
    (t.ecode = 1#4 ↔ i.wellFormed = false) ∧
    (t.ecode = 2#4 → (∀ rd, i ≠ .encode rd) ∧ ∀ rs, i ≠ .decode rs) ∧
    (t.ecode = 3#4 → ∃ rd, i = .encode rd) ∧ (t.ecode = 4#4 → ∃ rd rlo rhi, i = .primegen rd rlo rhi)

/-- The entropy source is used by FERMAT and PRIMEGEN only (R220): every other command takes no draw and gives the same
result whatever the source holds. -/
def Obligations.OtherCommandsIgnoreTheEntropySource : Prop :=
  ∀ (i : Instr) (s : State) (e : Entropy),
    (∀ rn, i ≠ .fermat rn) → (∀ rd rlo rhi, i ≠ .primegen rd rlo rhi) →
    ∃ t, exec i s = .next t ∧ t.entropy = s.entropy ∧ exec i { s with entropy := e } = .next { t with entropy := e }

/-! ### What every step keeps -/

/-- Every operand register stays in [0, 2^W) and W never changes (R7, R22): no command can overflow (R207). -/
def Obligations.StepKeepsRegistersInRange : Prop :=
  ∀ s t : State, s.regsInRange → step s = .next t → t.regsInRange ∧ t.build = s.build

/-- BUF keeps its canonical form and names no byte at or above BMAX (R31; log entry 9). -/
def Obligations.StepKeepsBufCanonical : Prop :=
  ∀ s t : State, s.bufCanonical → step s = .next t → t.bufCanonical

/-- TRIALS and RETRY_LIMIT are never 0, and the flags stay consistent: a pending command has cleared every result flag, ERR is
set exactly when ECODE is not 0, and no reserved code is ever produced (R27, R28, R32, R37, R200). -/
def Obligations.StepKeepsLimitsAndFlags : Prop :=
  ∀ s t : State, s.limitsNonzero → s.flagsConsistent → step s = .next t → t.limitsNonzero ∧ t.flagsConsistent

/-- STATUS always speaks of the word in CMD (R26, R30, R200): PRIME only while CMD holds a FERMAT word, each error code only
while CMD holds a word that can raise it. -/
def Obligations.StepKeepsStatusMatchingTheCommand : Prop :=
  ∀ s t : State, s.statusMatchesCommand → step s = .next t → t.statusMatchesCommand
end

