-- ==== Sys2Proof/Laws/Encoding.lean ====
section
/-! SUPPORT. The fields of an encoded word (R91): what the decoder's field readers give on a packed word. -/

namespace Sys2Proof

theorem packWord_toNat {op : Nat} (h : op < 256) (f0 f1 f2 f3 : Reg) :
    (packWord op f0 f1 f2 f3).toNat =
      op * 2 ^ 24 + f0.val * 2 ^ 20 + f1.val * 2 ^ 16 + f2.val * 2 ^ 12 + f3.val * 2 ^ 8 := by
  unfold packWord
  rw [BitVec.toNat_ofNat]
  omega

theorem opField_packWord {op : Nat} (h : op < 256) (f0 f1 f2 f3 : Reg) : opField (packWord op f0 f1 f2 f3) = op := by
  unfold opField bitSlice
  rw [packWord_toNat h, Nat.shiftRight_eq_div_pow]
  omega

theorem rsvField_packWord {op : Nat} (h : op < 256) (f0 f1 f2 f3 : Reg) : rsvField (packWord op f0 f1 f2 f3) = 0 := by
  unfold rsvField bitSlice
  rw [packWord_toNat h, Nat.shiftRight_eq_div_pow]
  omega

theorem field0_packWord {op : Nat} (h : op < 256) (f0 f1 f2 f3 : Reg) : field0 (packWord op f0 f1 f2 f3) = f0 := by
  apply Fin.ext
  unfold field0 bitSlice
  rw [packWord_toNat h, Nat.shiftRight_eq_div_pow]
  simp only [Fin.ofNat]
  omega

theorem field1_packWord {op : Nat} (h : op < 256) (f0 f1 f2 f3 : Reg) : field1 (packWord op f0 f1 f2 f3) = f1 := by
  apply Fin.ext
  unfold field1 bitSlice
  rw [packWord_toNat h, Nat.shiftRight_eq_div_pow]
  simp only [Fin.ofNat]
  omega

theorem field2_packWord {op : Nat} (h : op < 256) (f0 f1 f2 f3 : Reg) : field2 (packWord op f0 f1 f2 f3) = f2 := by
  apply Fin.ext
  unfold field2 bitSlice
  rw [packWord_toNat h, Nat.shiftRight_eq_div_pow]
  simp only [Fin.ofNat]
  omega

theorem field3_packWord {op : Nat} (h : op < 256) (f0 f1 f2 f3 : Reg) : field3 (packWord op f0 f1 f2 f3) = f3 := by
  apply Fin.ext
  unfold field3 bitSlice
  rw [packWord_toNat h, Nat.shiftRight_eq_div_pow]
  simp only [Fin.ofNat]
  omega

/-- A packed word is its fields side by side (R91). -/
theorem packWord_eq_append {op : Nat} (h : op < 256) (f0 f1 f2 f3 : Reg) :
    packWord op f0 f1 f2 f3 =
      BitVec.ofNat 8 op ++ BitVec.ofNat 4 f0.val ++ BitVec.ofNat 4 f1.val ++ BitVec.ofNat 4 f2.val ++
        BitVec.ofNat 4 f3.val ++ 0#8 := by
  apply BitVec.eq_of_toNat_eq
  rw [packWord_toNat h]
  simp only [BitVec.toNat_append, BitVec.toNat_ofNat]
  rw [← Nat.shiftLeft_add_eq_or_of_lt (by omega), ← Nat.shiftLeft_add_eq_or_of_lt (by omega),
    ← Nat.shiftLeft_add_eq_or_of_lt (by omega), ← Nat.shiftLeft_add_eq_or_of_lt (by omega),
    ← Nat.shiftLeft_add_eq_or_of_lt (by omega)]
  simp only [Nat.shiftLeft_eq]
  omega

/-! ### The decoder, one lemma for each opcode (R97) -/

theorem decodeWord_reserved {c : Word} (h : rsvField c ≠ 0) : decodeWord c = .illegal .reservedBits := by
  unfold decodeWord
  exact if_pos h

theorem decodeWord_modmul {c : Word} (hr : rsvField c = 0) (ho : opField c = 0x01) :
    decodeWord c = .command (.modmul (field0 c) (field1 c) (field2 c) (field3 c)) := by
  unfold decodeWord
  simp only [hr, ho, ne_eq, not_true_eq_false, if_false]

theorem decodeWord_modexp {c : Word} (hr : rsvField c = 0) (ho : opField c = 0x02) :
    decodeWord c = .command (.modexp (field0 c) (field1 c) (field2 c) (field3 c)) := by
  unfold decodeWord
  simp only [hr, ho, ne_eq, not_true_eq_false, if_false]

theorem decodeWord_extgcd {c : Word} (hr : rsvField c = 0) (ho : opField c = 0x03) :
    decodeWord c = if field0 c = field1 c then .illegal .sameDestinations
      else .command (.extgcd (field0 c) (field1 c) (field2 c) (field3 c)) := by
  unfold decodeWord
  simp only [hr, ho, ne_eq, not_true_eq_false, if_false]

theorem decodeWord_fermat {c : Word} (hr : rsvField c = 0) (ho : opField c = 0x04) :
    decodeWord c = if field0 c = 0 ∧ field2 c = 0 ∧ field3 c = 0 then .command (.fermat (field1 c))
      else .illegal .unusedField := by
  unfold decodeWord
  simp only [hr, ho, ne_eq, not_true_eq_false, if_false]

theorem decodeWord_primegen {c : Word} (hr : rsvField c = 0) (ho : opField c = 0x05) :
    decodeWord c = if field3 c = 0 then .command (.primegen (field0 c) (field1 c) (field2 c))
      else .illegal .unusedField := by
  unfold decodeWord
  simp only [hr, ho, ne_eq, not_true_eq_false, if_false]

theorem decodeWord_encode {c : Word} (hr : rsvField c = 0) (ho : opField c = 0x06) :
    decodeWord c = if field1 c = 0 ∧ field2 c = 0 ∧ field3 c = 0 then .command (.encode (field0 c))
      else .illegal .unusedField := by
  unfold decodeWord
  simp only [hr, ho, ne_eq, not_true_eq_false, if_false]

theorem decodeWord_decode {c : Word} (hr : rsvField c = 0) (ho : opField c = 0x07) :
    decodeWord c = if field0 c = 0 ∧ field2 c = 0 ∧ field3 c = 0 then .command (.decode (field1 c))
      else .illegal .unusedField := by
  unfold decodeWord
  simp only [hr, ho, ne_eq, not_true_eq_false, if_false]

theorem decodeWord_otherOpcode {c : Word} (hr : rsvField c = 0) (ho : opField c = 0 ∨ 7 < opField c) :
    decodeWord c = .illegal .reservedOpcode := by
  unfold decodeWord
  simp only [hr, ne_eq, not_true_eq_false, if_false]
  split <;> first | rfl | omega

/-! ### The fields as bits of the word (R91) -/

theorem opField_eq (c : Word) : opField c = (c.extractLsb' 24 8).toNat := by
  simp [opField, bitSlice, BitVec.extractLsb'_toNat]

theorem rsvField_eq (c : Word) : rsvField c = (c.extractLsb' 0 8).toNat := by
  simp [rsvField, bitSlice, BitVec.extractLsb'_toNat]

theorem field0_eq (c : Word) : (field0 c).val = (c.extractLsb' 20 4).toNat := by
  simp [field0, bitSlice, BitVec.extractLsb'_toNat, Fin.ofNat]

theorem field1_eq (c : Word) : (field1 c).val = (c.extractLsb' 16 4).toNat := by
  simp [field1, bitSlice, BitVec.extractLsb'_toNat, Fin.ofNat]

theorem field2_eq (c : Word) : (field2 c).val = (c.extractLsb' 12 4).toNat := by
  simp [field2, bitSlice, BitVec.extractLsb'_toNat, Fin.ofNat]

theorem field3_eq (c : Word) : (field3 c).val = (c.extractLsb' 8 4).toNat := by
  simp [field3, bitSlice, BitVec.extractLsb'_toNat, Fin.ofNat]

end Sys2Proof
end

