-- ==== Sys2Proof/Laws/State.lean ====
section
/-! SUPPORT. One lemma for each field of State and each shared update: what the field holds after it. No later proof unfolds a
record update. -/

namespace Sys2Proof.Machine

variable (s : State)

@[simp] theorem setReg_build (i : Reg) (v : Nat) : (setReg i v s).build = s.build := rfl
@[simp] theorem setReg_regs (i : Reg) (v : Nat) : (setReg i v s).regs = s.regs.set i.val v i.isLt := rfl
@[simp] theorem setReg_buf (i : Reg) (v : Nat) : (setReg i v s).buf = s.buf := rfl
@[simp] theorem setReg_blen (i : Reg) (v : Nat) : (setReg i v s).blen = s.blen := rfl
@[simp] theorem setReg_trials (i : Reg) (v : Nat) : (setReg i v s).trials = s.trials := rfl
@[simp] theorem setReg_retryLimit (i : Reg) (v : Nat) : (setReg i v s).retryLimit = s.retryLimit := rfl
@[simp] theorem setReg_cmd (i : Reg) (v : Nat) : (setReg i v s).cmd = s.cmd := rfl
@[simp] theorem setReg_ie (i : Reg) (v : Nat) : (setReg i v s).ie = s.ie := rfl
@[simp] theorem setReg_busy (i : Reg) (v : Nat) : (setReg i v s).busy = s.busy := rfl
@[simp] theorem setReg_done (i : Reg) (v : Nat) : (setReg i v s).done = s.done := rfl
@[simp] theorem setReg_err (i : Reg) (v : Nat) : (setReg i v s).err = s.err := rfl
@[simp] theorem setReg_prime (i : Reg) (v : Nat) : (setReg i v s).prime = s.prime := rfl
@[simp] theorem setReg_ovr (i : Reg) (v : Nat) : (setReg i v s).ovr = s.ovr := rfl
@[simp] theorem setReg_ecode (i : Reg) (v : Nat) : (setReg i v s).ecode = s.ecode := rfl
@[simp] theorem setReg_entropy (i : Reg) (v : Nat) : (setReg i v s).entropy = s.entropy := rfl
@[simp] theorem setReg_schedule (i : Reg) (v : Nat) : (setReg i v s).schedule = s.schedule := rfl
@[simp] theorem setReg_reply (i : Reg) (v : Nat) : (setReg i v s).reply = s.reply := rfl
@[simp] theorem setReg_refusedReads (i : Reg) (v : Nat) : (setReg i v s).refusedReads = s.refusedReads := rfl

@[simp] theorem setBufByte_build (j : Nat) (b : Byte) : (setBufByte j b s).build = s.build := rfl
@[simp] theorem setBufByte_regs (j : Nat) (b : Byte) : (setBufByte j b s).regs = s.regs := rfl
@[simp] theorem setBufByte_buf (j : Nat) (b : Byte) : (setBufByte j b s).buf = Memory.write s.buf j b := rfl
@[simp] theorem setBufByte_blen (j : Nat) (b : Byte) : (setBufByte j b s).blen = s.blen := rfl
@[simp] theorem setBufByte_trials (j : Nat) (b : Byte) : (setBufByte j b s).trials = s.trials := rfl
@[simp] theorem setBufByte_retryLimit (j : Nat) (b : Byte) : (setBufByte j b s).retryLimit = s.retryLimit := rfl
@[simp] theorem setBufByte_cmd (j : Nat) (b : Byte) : (setBufByte j b s).cmd = s.cmd := rfl
@[simp] theorem setBufByte_ie (j : Nat) (b : Byte) : (setBufByte j b s).ie = s.ie := rfl
@[simp] theorem setBufByte_busy (j : Nat) (b : Byte) : (setBufByte j b s).busy = s.busy := rfl
@[simp] theorem setBufByte_done (j : Nat) (b : Byte) : (setBufByte j b s).done = s.done := rfl
@[simp] theorem setBufByte_err (j : Nat) (b : Byte) : (setBufByte j b s).err = s.err := rfl
@[simp] theorem setBufByte_prime (j : Nat) (b : Byte) : (setBufByte j b s).prime = s.prime := rfl
@[simp] theorem setBufByte_ovr (j : Nat) (b : Byte) : (setBufByte j b s).ovr = s.ovr := rfl
@[simp] theorem setBufByte_ecode (j : Nat) (b : Byte) : (setBufByte j b s).ecode = s.ecode := rfl
@[simp] theorem setBufByte_entropy (j : Nat) (b : Byte) : (setBufByte j b s).entropy = s.entropy := rfl
@[simp] theorem setBufByte_schedule (j : Nat) (b : Byte) : (setBufByte j b s).schedule = s.schedule := rfl
@[simp] theorem setBufByte_reply (j : Nat) (b : Byte) : (setBufByte j b s).reply = s.reply := rfl
@[simp] theorem setBufByte_refusedReads (j : Nat) (b : Byte) : (setBufByte j b s).refusedReads = s.refusedReads := rfl

@[simp] theorem raise_build (e : ErrorCause) : (raise e s).build = s.build := rfl
@[simp] theorem raise_regs (e : ErrorCause) : (raise e s).regs = s.regs := rfl
@[simp] theorem raise_buf (e : ErrorCause) : (raise e s).buf = s.buf := rfl
@[simp] theorem raise_blen (e : ErrorCause) : (raise e s).blen = s.blen := rfl
@[simp] theorem raise_trials (e : ErrorCause) : (raise e s).trials = s.trials := rfl
@[simp] theorem raise_retryLimit (e : ErrorCause) : (raise e s).retryLimit = s.retryLimit := rfl
@[simp] theorem raise_cmd (e : ErrorCause) : (raise e s).cmd = s.cmd := rfl
@[simp] theorem raise_ie (e : ErrorCause) : (raise e s).ie = s.ie := rfl
@[simp] theorem raise_busy (e : ErrorCause) : (raise e s).busy = false := rfl
@[simp] theorem raise_done (e : ErrorCause) : (raise e s).done = true := rfl
@[simp] theorem raise_err (e : ErrorCause) : (raise e s).err = true := rfl
@[simp] theorem raise_prime (e : ErrorCause) : (raise e s).prime = false := rfl
@[simp] theorem raise_ovr (e : ErrorCause) : (raise e s).ovr = s.ovr := rfl
@[simp] theorem raise_ecode (e : ErrorCause) : (raise e s).ecode = errorCode e := rfl
@[simp] theorem raise_entropy (e : ErrorCause) : (raise e s).entropy = s.entropy := rfl
@[simp] theorem raise_schedule (e : ErrorCause) : (raise e s).schedule = s.schedule := rfl
@[simp] theorem raise_reply (e : ErrorCause) : (raise e s).reply = s.reply := rfl
@[simp] theorem raise_refusedReads (e : ErrorCause) : (raise e s).refusedReads = s.refusedReads := rfl

@[simp] theorem complete_build (p : Bool) : (complete p s).build = s.build := rfl
@[simp] theorem complete_regs (p : Bool) : (complete p s).regs = s.regs := rfl
@[simp] theorem complete_buf (p : Bool) : (complete p s).buf = s.buf := rfl
@[simp] theorem complete_blen (p : Bool) : (complete p s).blen = s.blen := rfl
@[simp] theorem complete_trials (p : Bool) : (complete p s).trials = s.trials := rfl
@[simp] theorem complete_retryLimit (p : Bool) : (complete p s).retryLimit = s.retryLimit := rfl
@[simp] theorem complete_cmd (p : Bool) : (complete p s).cmd = s.cmd := rfl
@[simp] theorem complete_ie (p : Bool) : (complete p s).ie = s.ie := rfl
@[simp] theorem complete_busy (p : Bool) : (complete p s).busy = false := rfl
@[simp] theorem complete_done (p : Bool) : (complete p s).done = true := rfl
@[simp] theorem complete_err (p : Bool) : (complete p s).err = false := rfl
@[simp] theorem complete_prime (p : Bool) : (complete p s).prime = p := rfl
@[simp] theorem complete_ovr (p : Bool) : (complete p s).ovr = s.ovr := rfl
@[simp] theorem complete_ecode (p : Bool) : (complete p s).ecode = 0 := rfl
@[simp] theorem complete_entropy (p : Bool) : (complete p s).entropy = s.entropy := rfl
@[simp] theorem complete_schedule (p : Bool) : (complete p s).schedule = s.schedule := rfl
@[simp] theorem complete_reply (p : Bool) : (complete p s).reply = s.reply := rfl
@[simp] theorem complete_refusedReads (p : Bool) : (complete p s).refusedReads = s.refusedReads := rfl

@[simp] theorem startCommand_build (c : Word) : (startCommand c s).build = s.build := rfl
@[simp] theorem startCommand_regs (c : Word) : (startCommand c s).regs = s.regs := rfl
@[simp] theorem startCommand_buf (c : Word) : (startCommand c s).buf = s.buf := rfl
@[simp] theorem startCommand_blen (c : Word) : (startCommand c s).blen = s.blen := rfl
@[simp] theorem startCommand_trials (c : Word) : (startCommand c s).trials = s.trials := rfl
@[simp] theorem startCommand_retryLimit (c : Word) : (startCommand c s).retryLimit = s.retryLimit := rfl
@[simp] theorem startCommand_cmd (c : Word) : (startCommand c s).cmd = c := rfl
@[simp] theorem startCommand_ie (c : Word) : (startCommand c s).ie = s.ie := rfl
@[simp] theorem startCommand_busy (c : Word) : (startCommand c s).busy = true := rfl
@[simp] theorem startCommand_done (c : Word) : (startCommand c s).done = false := rfl
@[simp] theorem startCommand_err (c : Word) : (startCommand c s).err = false := rfl
@[simp] theorem startCommand_prime (c : Word) : (startCommand c s).prime = false := rfl
@[simp] theorem startCommand_ovr (c : Word) : (startCommand c s).ovr = s.ovr := rfl
@[simp] theorem startCommand_ecode (c : Word) : (startCommand c s).ecode = 0 := rfl
@[simp] theorem startCommand_entropy (c : Word) : (startCommand c s).entropy = s.entropy := rfl
@[simp] theorem startCommand_schedule (c : Word) : (startCommand c s).schedule = s.schedule := rfl
@[simp] theorem startCommand_reply (c : Word) : (startCommand c s).reply = s.reply := rfl
@[simp] theorem startCommand_refusedReads (c : Word) : (startCommand c s).refusedReads = s.refusedReads := rfl

@[simp] theorem writeOneToClear_build (v : Word) : (writeOneToClear v s).build = s.build := rfl
@[simp] theorem writeOneToClear_regs (v : Word) : (writeOneToClear v s).regs = s.regs := rfl
@[simp] theorem writeOneToClear_buf (v : Word) : (writeOneToClear v s).buf = s.buf := rfl
@[simp] theorem writeOneToClear_blen (v : Word) : (writeOneToClear v s).blen = s.blen := rfl
@[simp] theorem writeOneToClear_trials (v : Word) : (writeOneToClear v s).trials = s.trials := rfl
@[simp] theorem writeOneToClear_retryLimit (v : Word) : (writeOneToClear v s).retryLimit = s.retryLimit := rfl
@[simp] theorem writeOneToClear_cmd (v : Word) : (writeOneToClear v s).cmd = s.cmd := rfl
@[simp] theorem writeOneToClear_ie (v : Word) : (writeOneToClear v s).ie = s.ie := rfl
@[simp] theorem writeOneToClear_busy (v : Word) : (writeOneToClear v s).busy = s.busy := rfl
@[simp] theorem writeOneToClear_done (v : Word) : (writeOneToClear v s).done = (s.done && !v.getLsbD 1) := rfl
@[simp] theorem writeOneToClear_err (v : Word) : (writeOneToClear v s).err = s.err := rfl
@[simp] theorem writeOneToClear_prime (v : Word) : (writeOneToClear v s).prime = s.prime := rfl
@[simp] theorem writeOneToClear_ovr (v : Word) : (writeOneToClear v s).ovr = (s.ovr && !v.getLsbD 4) := rfl
@[simp] theorem writeOneToClear_ecode (v : Word) : (writeOneToClear v s).ecode = s.ecode := rfl
@[simp] theorem writeOneToClear_entropy (v : Word) : (writeOneToClear v s).entropy = s.entropy := rfl
@[simp] theorem writeOneToClear_schedule (v : Word) : (writeOneToClear v s).schedule = s.schedule := rfl
@[simp] theorem writeOneToClear_reply (v : Word) : (writeOneToClear v s).reply = s.reply := rfl
@[simp] theorem writeOneToClear_refusedReads (v : Word) : (writeOneToClear v s).refusedReads = s.refusedReads := rfl

@[simp] theorem resetState_build : (resetState s).build = s.build := rfl
@[simp] theorem resetState_regs : (resetState s).regs = Vector.replicate 16 0 := rfl
@[simp] theorem resetState_buf : (resetState s).buf = [] := rfl
@[simp] theorem resetState_blen : (resetState s).blen = 0 := rfl
@[simp] theorem resetState_trials : (resetState s).trials = Config.trialsReset := rfl
@[simp] theorem resetState_retryLimit : (resetState s).retryLimit = Config.retryLimitReset := rfl
@[simp] theorem resetState_cmd : (resetState s).cmd = 0 := rfl
@[simp] theorem resetState_ie : (resetState s).ie = false := rfl
@[simp] theorem resetState_busy : (resetState s).busy = false := rfl
@[simp] theorem resetState_done : (resetState s).done = false := rfl
@[simp] theorem resetState_err : (resetState s).err = false := rfl
@[simp] theorem resetState_prime : (resetState s).prime = false := rfl
@[simp] theorem resetState_ovr : (resetState s).ovr = false := rfl
@[simp] theorem resetState_ecode : (resetState s).ecode = 0 := rfl
@[simp] theorem resetState_entropy : (resetState s).entropy = s.entropy := rfl
@[simp] theorem resetState_schedule : (resetState s).schedule = s.schedule := rfl
@[simp] theorem resetState_reply : (resetState s).reply = s.reply := rfl
@[simp] theorem resetState_refusedReads : (resetState s).refusedReads = s.refusedReads := rfl

end Sys2Proof.Machine
end

