-- ==== Sys2Proof/Laws/Memory.lean ====
section
/-! SUPPORT. The laws of BUF's memory: every operation keeps the canonical form, a read after a write gives the byte
written, every other byte reads as before, and equal reads make equal memories. -/

namespace Sys2Proof.Machine

@[simp] theorem read_nil (a : Nat) : Memory.read [] a = 0 := rfl

theorem read_cons (c : Host.Cell) (m : Memory) (a : Nat) :
    Memory.read (c :: m) a = if a = c.1 then c.2 else Memory.read m a := rfl

theorem wfFrom_cons (lo : Option Nat) (c : Host.Cell) (m : Memory) :
    Memory.wfFrom lo (c :: m) = true ↔
      (∀ l ∈ lo, l < c.1) ∧ c.2 ≠ 0 ∧ Memory.wfFrom (some c.1) m = true := by
  cases lo <;> simp [Memory.wfFrom, unlistedByte, and_assoc]

theorem wfFrom_weaken {lo lo' : Option Nat} {m : Memory} (h : Memory.wfFrom lo m = true)
    (hl : ∀ l' ∈ lo', ∃ l ∈ lo, l' ≤ l) : Memory.wfFrom lo' m = true := by
  cases m with
  | nil => rfl
  | cons c m =>
    rw [wfFrom_cons] at h ⊢
    refine ⟨fun l' h' => ?_, h.2⟩
    obtain ⟨l, hl, hle⟩ := hl l' h'
    exact Nat.lt_of_le_of_lt hle (h.1 l hl)

/-- Below the bound of a canonical memory every byte reads as unlisted. -/
theorem read_of_le {l a : Nat} {m : Memory} (h : Memory.wfFrom (some l) m = true) (ha : a ≤ l) :
    Memory.read m a = 0 := by
  induction m generalizing l with
  | nil => rfl
  | cons c m ih =>
    rw [wfFrom_cons] at h
    have hlt : l < c.1 := h.1 l rfl
    rw [read_cons, if_neg (by omega)]
    exact ih h.2.2 (by omega)

theorem write_wfFrom {lo : Option Nat} {m : Memory} {a : Nat} {v : Byte} (h : Memory.wfFrom lo m = true)
    (ha : ∀ l ∈ lo, l < a) : Memory.wfFrom lo (Memory.write m a v) = true := by
  induction m generalizing lo with
  | nil =>
    by_cases hv : v = unlistedByte
    · simp [Memory.write, hv, Memory.wfFrom]
    · have e : Memory.write [] a v = [(a, v)] := by simp [Memory.write, hv]
      rw [e, wfFrom_cons]
      exact ⟨ha, hv, rfl⟩
  | cons c m ih =>
    have hc := (wfFrom_cons lo c m).1 h
    by_cases h1 : a < c.1
    · by_cases hv : v = unlistedByte
      · simpa [Memory.write, h1, hv] using h
      · have e : Memory.write (c :: m) a v = (a, v) :: c :: m := by
          simp [Memory.write, h1, hv]
        rw [e, wfFrom_cons, wfFrom_cons]
        exact ⟨ha, hv, by simpa using h1, hc.2⟩
    · by_cases h2 : a = c.1
      · by_cases hv : v = unlistedByte
        · have e : Memory.write (c :: m) a v = m := by simp [Memory.write, h2, hv]
          rw [e]
          exact wfFrom_weaken hc.2.2 fun l hl => ⟨c.1, rfl, Nat.le_of_lt (hc.1 l hl)⟩
        · have e : Memory.write (c :: m) a v = (a, v) :: m := by simp [Memory.write, h2, hv]
          rw [e, wfFrom_cons]
          exact ⟨ha, hv, h2 ▸ hc.2.2⟩
      · have e : Memory.write (c :: m) a v = c :: Memory.write m a v := by simp [Memory.write, h1, h2]
        rw [e, wfFrom_cons]
        exact ⟨hc.1, hc.2.1, ih hc.2.2 (by rintro l ⟨⟩; omega)⟩

/-- Writing a byte keeps the canonical form. -/
theorem write_wf {m : Memory} (a : Nat) (v : Byte) (h : Memory.wf m = true) : Memory.wf (Memory.write m a v) = true :=
  write_wfFrom h (by simp)

theorem below_iff {n : Nat} {m : Memory} : Memory.below n m = true ↔ ∀ c ∈ m, c.1 < n := by
  simp [Memory.below]

theorem mem_write {m : Memory} {a : Nat} {v : Byte} {c : Host.Cell} (h : c ∈ Memory.write m a v) :
    c = (a, v) ∨ c ∈ m := by
  induction m with
  | nil =>
    rw [Memory.write] at h
    split at h
    · exact absurd h (by simp)
    · exact .inl (by simpa using h)
  | cons d m ih =>
    rw [Memory.write] at h
    split at h
    · split at h
      · exact .inr h
      · rcases List.mem_cons.1 h with h | h
        · exact .inl h
        · exact .inr h
    · split at h
      · split at h
        · exact .inr (List.mem_cons_of_mem _ h)
        · rcases List.mem_cons.1 h with h | h
          · exact .inl h
          · exact .inr (List.mem_cons_of_mem _ h)
      · rcases List.mem_cons.1 h with h | h
        · exact .inr (h ▸ List.mem_cons_self)
        · rcases ih h with h | h
          · exact .inl h
          · exact .inr (List.mem_cons_of_mem _ h)

/-- Writing a byte below `n` names no byte at or above `n`. -/
theorem write_below {n : Nat} {m : Memory} {a : Nat} {v : Byte} (h : Memory.below n m = true) (ha : a < n) :
    Memory.below n (Memory.write m a v) = true := by
  rw [below_iff] at h ⊢
  intro c hc
  rcases mem_write hc with rfl | hc
  · exact ha
  · exact h c hc

/-- A write leaves every other byte alone, in any memory. -/
theorem read_write_other {m : Memory} {a b : Nat} {v : Byte} (h : b ≠ a) :
    Memory.read (Memory.write m a v) b = Memory.read m b := by
  induction m with
  | nil => simp only [Memory.write]; split <;> simp [read_cons, h]
  | cons c m ih =>
    simp only [Memory.write]
    split
    · split
      · rfl
      · rw [read_cons]; exact if_neg h
    · split
      · rename_i h1 h2
        subst h2
        split
        · rw [read_cons, if_neg h]
        · simp only [read_cons, if_neg h]
      · simp only [read_cons, ih]

/-- A read after a write to the same byte gives the byte written, in a canonical memory. -/
theorem read_write_same {m : Memory} (a : Nat) (v : Byte) (h : Memory.wf m = true) :
    Memory.read (Memory.write m a v) a = v := by
  have key : ∀ (m : Memory) (lo : Option Nat), Memory.wfFrom lo m = true →
      Memory.read (Memory.write m a v) a = v := by
    intro m
    induction m with
    | nil => intro _ _; simp only [Memory.write]; split <;> simp_all [read_cons, unlistedByte]
    | cons c m ih =>
      intro lo h
      have hc := (wfFrom_cons lo c m).1 h
      simp only [Memory.write]
      split
      · rename_i h1
        split
        · rename_i hv
          rw [read_cons, if_neg (by omega), read_of_le hc.2.2 (by omega), hv]; rfl
        · rw [read_cons]; exact if_pos rfl
      · split
        · rename_i h1 h2
          split
          · rename_i hv
            rw [h2, read_of_le hc.2.2 (Nat.le_refl _), hv]; rfl
          · rw [read_cons]; exact if_pos rfl
        · rename_i h1 h2
          rw [read_cons, if_neg h2]
          exact ih _ hc.2.2
  exact key m none h

theorem read_of_below {n a : Nat} {m : Memory} (h : Memory.below n m = true) (ha : n ≤ a) : Memory.read m a = 0 := by
  induction m with
  | nil => rfl
  | cons c m ih =>
    rw [below_iff] at h
    rw [read_cons, if_neg (by have := h c List.mem_cons_self; omega)]
    exact ih (below_iff.2 fun d hd => h d (List.mem_cons_of_mem _ hd))

theorem ofBytes_wf (f : Nat → Byte) (n : Nat) : Memory.wf (Memory.ofBytes f n) = true := by
  induction n with
  | zero => rfl
  | succ n ih => exact write_wf n (f n) ih

theorem ofBytes_below (f : Nat → Byte) (n : Nat) : Memory.below n (Memory.ofBytes f n) = true := by
  induction n with
  | zero => rfl
  | succ n ih =>
    refine write_below (below_iff.2 fun c hc => ?_) (Nat.lt_succ_self n)
    exact Nat.lt_succ_of_lt (below_iff.1 ih c hc)

/-- Writing all of BUF: byte `j` holds `f j` below `n`, and 0 above. -/
theorem read_ofBytes (f : Nat → Byte) (n j : Nat) :
    Memory.read (Memory.ofBytes f n) j = if j < n then f j else 0 := by
  induction n with
  | zero => rfl
  | succ n ih =>
    rw [Memory.ofBytes]
    by_cases h : j = n
    · subst h; rw [read_write_same _ _ (ofBytes_wf f j), if_pos (Nat.lt_succ_self j)]
    · rw [read_write_other h, ih]
      exact if_congr (by omega) rfl rfl

/-- Two canonical memories that read alike everywhere are the same data. -/
theorem eq_of_read_eq {m m' : Memory} (h : Memory.wf m = true) (h' : Memory.wf m' = true)
    (e : ∀ a, Memory.read m a = Memory.read m' a) : m = m' := by
  have key : ∀ (m m' : Memory) (lo lo' : Option Nat), Memory.wfFrom lo m = true → Memory.wfFrom lo' m' = true →
      (∀ a, Memory.read m a = Memory.read m' a) → m = m' := by
    intro m
    induction m with
    | nil =>
      intro m' _ lo' _ h' e
      cases m' with
      | nil => rfl
      | cons c m' =>
        have hc := (wfFrom_cons lo' c m').1 h'
        have := e c.1
        rw [read_cons, if_pos rfl] at this
        exact absurd this.symm hc.2.1
    | cons c m ih =>
      intro m' lo lo' h h' e
      have hc := (wfFrom_cons lo c m).1 h
      cases m' with
      | nil =>
        have := e c.1
        rw [read_cons, if_pos rfl] at this
        exact absurd this hc.2.1
      | cons d m' =>
        have hd := (wfFrom_cons lo' d m').1 h'
        have hkey : c.1 = d.1 := by
          rcases Nat.lt_trichotomy c.1 d.1 with hlt | heq | hgt
          · have := e c.1
            rw [read_cons, if_pos rfl, read_cons, if_neg (by omega), read_of_le hd.2.2 (by omega)] at this
            exact absurd this hc.2.1
          · exact heq
          · have := e d.1
            rw [read_cons, if_neg (by omega), read_of_le hc.2.2 (by omega), read_cons, if_pos rfl] at this
            exact absurd this.symm hd.2.1
        have hval : c.2 = d.2 := by
          have := e c.1
          rwa [read_cons, if_pos rfl, read_cons, if_pos hkey] at this
        have hrest : m = m' := by
          refine ih m' _ _ hc.2.2 hd.2.2 fun a => ?_
          by_cases ha : a = c.1
          · rw [read_of_le hc.2.2 (by omega), read_of_le hd.2.2 (by omega)]
          · have := e a
            rwa [read_cons, if_neg ha, read_cons, if_neg (by omega)] at this
        rw [hrest, Prod.ext hkey hval]
  exact key m m' none none h h' e

end Sys2Proof.Machine
end

