-- ==== Sys2Proof/Laws/Ops.lean ====
section
/-! SUPPORT. What the shared operations do, said once each: operand registers and their words, BUF's bytes, the entropy
source's draws, and the bus's choice of offset. -/

namespace Sys2Proof.Machine

/-! ### Operand registers -/

@[simp] theorem reg_setReg (i j : Reg) (v : Nat) (s : State) :
    reg (setReg i v s) j = if j = i then v else reg s j := by
  unfold reg setReg
  by_cases h : j = i
  · subst h; simp [Vector.get_eq_getElem]
  · have h' : (i : Nat) ≠ j := fun e => h (Fin.ext e.symm)
    simp [Vector.get_eq_getElem, h, h']

theorem reg_congr {s t : State} (h : t.regs = s.regs) (i : Reg) : reg t i = reg s i := by unfold reg; rw [h]

theorem bufByte_congr {s t : State} (h : t.buf = s.buf) (j : Nat) : bufByte t j = bufByte s j := by
  unfold bufByte; rw [h]

@[simp] theorem reg_resetState (i : Reg) (s : State) : reg (resetState s) i = 0 := by
  unfold reg
  simp [Vector.get_eq_getElem]

/-! ### Words of an operand register (R64) -/

/-- The bits of a register after one word is replaced: the word's own bits inside it, the old bits elsewhere. -/
theorem testBit_replaceWord (v k : Nat) (w : Word) (i : Nat) :
    (replaceWord v k w).testBit i =
      if 32 * k ≤ i ∧ i < 32 * k + 32 then w.toNat.testBit (i - 32 * k) else v.testBit i := by
  have hp : 0 < 2 ^ (32 * k) := Nat.two_pow_pos _
  have hv := (Nat.div_add_mod v (2 ^ (32 * k))).symm
  have hq := (Nat.div_add_mod (v / 2 ^ (32 * k)) (2 ^ 32)).symm
  have hr : v % 2 ^ (32 * k) < 2 ^ (32 * k) := Nat.mod_lt _ hp
  have hs : v / 2 ^ (32 * k) % 2 ^ 32 < 2 ^ 32 := Nat.mod_lt _ (by decide)
  have hnew : replaceWord v k w =
      2 ^ (32 * k) * (2 ^ 32 * (v / 2 ^ (32 * k) / 2 ^ 32) + w.toNat) + v % 2 ^ (32 * k) := by
    have hv2 : v = 2 ^ (32 * k) * (2 ^ 32 * (v / 2 ^ (32 * k) / 2 ^ 32)) +
        v / 2 ^ (32 * k) % 2 ^ 32 * 2 ^ (32 * k) + v % 2 ^ (32 * k) := by
      calc v = 2 ^ (32 * k) * (v / 2 ^ (32 * k)) + v % 2 ^ (32 * k) := hv
        _ = 2 ^ (32 * k) * (2 ^ 32 * (v / 2 ^ (32 * k) / 2 ^ 32) + v / 2 ^ (32 * k) % 2 ^ 32)
              + v % 2 ^ (32 * k) := by rw [← hq]
        _ = _ := by ring
    unfold replaceWord wordSlice
    rw [Nat.shiftRight_eq_div_pow, Nat.mul_add, Nat.mul_comm w.toNat]
    omega
  rw [hnew, Nat.testBit_two_pow_mul_add _ hr, Nat.testBit_two_pow_mul_add _ w.isLt]
  by_cases h1 : i < 32 * k
  · rw [if_pos h1, if_neg (by omega)]
    simp [Nat.testBit_mod_two_pow, h1]
  · rw [if_neg h1]
    by_cases h2 : i - 32 * k < 32
    · rw [if_pos h2, if_pos (by omega)]
    · rw [if_neg h2, if_neg (by omega), ← Nat.shiftRight_eq_div_pow, ← Nat.shiftRight_eq_div_pow,
        Nat.testBit_shiftRight, Nat.testBit_shiftRight]
      congr 1
      omega

/-- The bits of word `k` of a value. -/
theorem testBit_wordSlice (v k i : Nat) : (wordSlice v k).testBit i = (decide (i < 32) && v.testBit (32 * k + i)) := by
  unfold wordSlice
  rw [Nat.testBit_mod_two_pow, Nat.testBit_shiftRight]

/-- Word `k'` of a register after word `k` is replaced. -/
theorem wordSlice_replaceWord (v k k' : Nat) (w : Word) :
    wordSlice (replaceWord v k w) k' = if k' = k then w.toNat else wordSlice v k' := by
  apply Nat.eq_of_testBit_eq
  intro i
  rw [testBit_wordSlice, testBit_replaceWord]
  by_cases hi : i < 32
  · by_cases hk : k' = k
    · subst hk
      simp [hi]
    · rw [if_neg (by omega), if_neg hk, testBit_wordSlice]
  · by_cases hk : k' = k
    · have hw : w.toNat.testBit i = false :=
        Nat.testBit_lt_two_pow (Nat.lt_of_lt_of_le w.isLt (Nat.pow_le_pow_right (by decide) (by omega)))
      simp [hi, hk, hw]
    · rw [if_neg hk, testBit_wordSlice]
      simp [hi]

/-- Replacing a word below word `n` keeps a value below `2^(32n)`. -/
theorem replaceWord_lt {v k n : Nat} (w : Word) (hv : v < 2 ^ (32 * n)) (hk : k < n) :
    replaceWord v k w < 2 ^ (32 * n) := by
  apply Nat.lt_pow_two_of_testBit
  intro i hi
  rw [testBit_replaceWord, if_neg (by omega)]
  exact Nat.testBit_lt_two_pow (Nat.lt_of_lt_of_le hv (Nat.pow_le_pow_right (by decide) hi))

/-! ### Bytes of a value (R8, R176) -/

/-- The byte the decoding loop extracts is `v[8i+7:8i]` (R176). -/
theorem extractedByte_eq_byteOf (v i : Nat) : extractedByte v i = byteOf v i := by
  have hp : 0 < 256 ^ i := Nat.pow_pos (by decide)
  unfold extractedByte byteOf
  have h1 : v % 256 ^ (i + 1) = v % 256 ^ i + 256 ^ i * (v / 256 ^ i % 256) := by
    rw [Nat.pow_succ, Nat.mod_mul]
  rw [h1, Nat.add_sub_cancel_left, Nat.mul_div_cancel_left _ hp, Nat.shiftRight_eq_div_pow, Nat.pow_mul]
  apply BitVec.eq_of_toNat_eq
  simp

/-! ### The entropy source (R222) -/

@[simp] theorem drawRaw_spent (e : Entropy) : (drawRaw e).2.spent = e.spent + 1 := by
  unfold drawRaw; split <;> rfl

@[simp] theorem drawRaw_cons (r : Nat) (rs : List Nat) (k : Nat) :
    drawRaw { supplied := r :: rs, spent := k } = (r, { supplied := rs, spent := k + 1 }) := rfl

@[simp] theorem drawWitness_spent (n : Nat) (e : Entropy) : (drawWitness n e).2.spent = e.spent + 1 := drawRaw_spent e

@[simp] theorem drawCandidate_spent (lo hi : Nat) (e : Entropy) : (drawCandidate lo hi e).2.spent = e.spent + 1 :=
  drawRaw_spent e

/-- Every witness lies in [2, n-2]. -/
theorem witnessOf_range {n : Nat} (h : 3 < n) (raw : Nat) : 2 ≤ witnessOf n raw ∧ witnessOf n raw ≤ n - 2 := by
  have := Nat.mod_lt raw (y := n - 3) (by omega)
  unfold witnessOf
  omega

/-- Every value in [2, n-2] is the witness of some raw draw. -/
theorem witnessOf_surjective {n a : Nat} (h2 : 2 ≤ a) (hn : a ≤ n - 2) : witnessOf n (a - 2) = a := by
  unfold witnessOf
  rw [Nat.mod_eq_of_lt (by omega)]
  omega

/-- Every candidate of a range that holds an odd integer is odd and lies in the range. -/
theorem candidateOf_range {lo hi : Nat} (h : lo ≤ hi) (hodd : lo % 2 = 1 ∨ lo < hi) (raw : Nat) :
    candidateOf lo hi raw % 2 = 1 ∧ lo ≤ candidateOf lo hi raw ∧ candidateOf lo hi raw ≤ hi := by
  have hf : firstOdd lo % 2 = 1 ∧ lo ≤ firstOdd lo ∧ firstOdd lo ≤ hi := by
    unfold firstOdd
    split <;> omega
  have := Nat.mod_lt raw (y := (hi - firstOdd lo) / 2 + 1) (by omega)
  unfold candidateOf
  omega

/-- Every odd value in [lo, hi] is the candidate of some raw draw. -/
theorem candidateOf_surjective {lo hi c : Nat} (hc : c % 2 = 1) (hl : lo ≤ c) (hh : c ≤ hi) :
    candidateOf lo hi ((c - firstOdd lo) / 2) = c := by
  have hf : firstOdd lo % 2 = 1 ∧ firstOdd lo ≤ c := by
    unfold firstOdd
    split <;> omega
  unfold candidateOf
  rw [Nat.mod_eq_of_lt (by omega)]
  omega

/-- Draws taken one after the other are draws taken together. -/
theorem afterDraws_add (k m : Nat) (e : Entropy) : afterDraws (k + m) e = afterDraws m (afterDraws k e) := by
  induction k generalizing e with
  | zero => rw [Nat.zero_add]; rfl
  | succ k ih => rw [Nat.succ_add]; exact ih _

@[simp] theorem afterDraws_spent (k : Nat) (e : Entropy) : (afterDraws k e).spent = e.spent + k := by
  induction k generalizing e with
  | zero => rfl
  | succ k ih =>
    rw [afterDraws, ih, drawRaw_spent]
    omega

@[simp] theorem witnesses_length (n k : Nat) (e : Entropy) : (witnesses n k e).length = k := by
  induction k generalizing e with
  | zero => rfl
  | succ k ih => rw [witnesses, List.length_cons, ih]

@[simp] theorem candidateStart_zero (lo hi T : Nat) (e : Entropy) : candidateStart lo hi T 0 e = e := rfl

theorem candidateStart_succ (lo hi T k : Nat) (e : Entropy) :
    candidateStart lo hi T (k + 1) e = afterCandidate lo hi T (candidateStart lo hi T k e) := rfl

/-- The candidates after the first are those of the source left after it. -/
theorem candidateStart_succ_left (lo hi T k : Nat) (e : Entropy) :
    candidateStart lo hi T (k + 1) e = candidateStart lo hi T k (afterCandidate lo hi T e) := by
  induction k with
  | zero => rfl
  | succ k ih => rw [candidateStart_succ, ih, ← candidateStart_succ]

/-- No candidate takes more than `T` witnesses. -/
theorem candidateTrials_le (lo hi T : Nat) (e : Entropy) : candidateTrials lo hi T e ≤ T := Nat.min_le_left _ _

/-- A candidate that passes takes all `T` witnesses. -/
theorem candidateTrials_of_passes {lo hi T : Nat} {e : Entropy} (h : candidatePasses lo hi T e = true) :
    candidateTrials lo hi T e = T := by
  have hl : (candidateWitnesses lo hi T e).findIdx (fun a => !fermatHolds (candidateAt lo hi e) a) = T := by
    have hT : (candidateWitnesses lo hi T e).length = T := witnesses_length _ _ _
    conv_rhs => rw [← hT]
    rw [List.findIdx_eq_length]
    intro a ha
    simp [List.all_eq_true.1 h a ha]
  unfold candidateTrials
  omega

/-! ### The bus (R60, R61, R63) -/

theorem windowOffset_base {b : Build} {off : Nat} (h : off < Config.windowBytes) :
    windowOffset b (b.base + off) = some off := by
  unfold windowOffset
  rw [if_pos (by omega)]
  simp

/-- A served read answers the window's word and touches nothing else. -/
theorem busRead_served {s : State} {off : Nat} (h : off < Config.windowBytes) (ha : off % 4 = 0) :
    busRead (s.build.base + off) 4 s = { s with reply := .data (hostRead off s) } := by
  simp [busRead, windowOffset_base h, accessServed, ha]

/-- A served write performs the window's write. -/
theorem busWrite_served {s : State} {off : Nat} (v : Word) (h : off < Config.windowBytes) (ha : off % 4 = 0) :
    busWrite (s.build.base + off) 4 v s = { hostWrite off v s with reply := .written } := by
  simp [busWrite, windowOffset_base h, accessServed, ha]

/-- A read changes only the model's own fields `reply` and `refusedReads`. -/
theorem busRead_cases (addr size : Nat) (s : State) :
    ∃ r k, busRead addr size s = { s with reply := r, refusedReads := k } := by
  unfold busRead
  split
  · exact ⟨_, s.refusedReads, rfl⟩
  · split
    · exact ⟨_, s.refusedReads, rfl⟩
    · exact ⟨_, _, rfl⟩

/-- A write is a window write at a served offset, or changes nothing but the reply. -/
theorem busWrite_cases (addr size : Nat) (v : Word) (s : State) :
    (∃ off, windowOffset s.build addr = some off ∧ accessServed off size = true ∧
      busWrite addr size v s = { hostWrite off v s with reply := .written }) ∨
    ∃ r, busWrite addr size v s = { s with reply := r } := by
  unfold busWrite
  split
  · exact .inr ⟨_, rfl⟩
  · rename_i off h
    split
    · rename_i h'
      exact .inl ⟨off, h, h', rfl⟩
    · exact .inr ⟨_, rfl⟩

end Sys2Proof.Machine
end

