-- ==== Sys2Proof/Laws/PerInstr.lean ====
section
/-! SUPPORT. Per-instruction family TableMatch: the word of every command fits its row of the opcode map (R94). -/

namespace Sys2Proof.Laws.TableMatch

/-- The encoded word, masked as the command's row says, is the row's match value. -/
def Statement (i : Instr) : Prop := (opcodeRow i).fits (encodeWord i) = true

theorem modmul (rd ra rb rm : Reg) : Statement (.modmul rd ra rb rm) := by
  show (packWord 0x01 rd ra rb rm &&& 0xFF0000FF#32 == 0x01000000#32) = true
  rw [packWord_eq_append (by decide), beq_iff_eq]
  apply BitVec.eq_of_getLsbD_eq
  intro i hi
  interval_cases i <;> simp only [BitVec.getLsbD_and, BitVec.getLsbD_append] <;> simp

theorem modexp (rd rbase rexp rmod : Reg) : Statement (.modexp rd rbase rexp rmod) := by
  show (packWord 0x02 rd rbase rexp rmod &&& 0xFF0000FF#32 == 0x02000000#32) = true
  rw [packWord_eq_append (by decide), beq_iff_eq]
  apply BitVec.eq_of_getLsbD_eq
  intro i hi
  interval_cases i <;> simp only [BitVec.getLsbD_and, BitVec.getLsbD_append] <;> simp

theorem extgcd (rinv rgcd ra rb : Reg) : Statement (.extgcd rinv rgcd ra rb) := by
  show (packWord 0x03 rinv rgcd ra rb &&& 0xFF0000FF#32 == 0x03000000#32) = true
  rw [packWord_eq_append (by decide), beq_iff_eq]
  apply BitVec.eq_of_getLsbD_eq
  intro i hi
  interval_cases i <;> simp only [BitVec.getLsbD_and, BitVec.getLsbD_append] <;> simp

theorem fermat (rn : Reg) : Statement (.fermat rn) := by
  show (packWord 0x04 0 rn 0 0 &&& 0xFFF0FFFF#32 == 0x04000000#32) = true
  rw [packWord_eq_append (by decide), beq_iff_eq]
  apply BitVec.eq_of_getLsbD_eq
  intro i hi
  interval_cases i <;> simp only [BitVec.getLsbD_and, BitVec.getLsbD_append] <;> simp

theorem primegen (rd rlo rhi : Reg) : Statement (.primegen rd rlo rhi) := by
  show (packWord 0x05 rd rlo rhi 0 &&& 0xFF000FFF#32 == 0x05000000#32) = true
  rw [packWord_eq_append (by decide), beq_iff_eq]
  apply BitVec.eq_of_getLsbD_eq
  intro i hi
  interval_cases i <;> simp only [BitVec.getLsbD_and, BitVec.getLsbD_append] <;> simp

theorem encode (rd : Reg) : Statement (.encode rd) := by
  show (packWord 0x06 rd 0 0 0 &&& 0xFF0FFFFF#32 == 0x06000000#32) = true
  rw [packWord_eq_append (by decide), beq_iff_eq]
  apply BitVec.eq_of_getLsbD_eq
  intro i hi
  interval_cases i <;> simp only [BitVec.getLsbD_and, BitVec.getLsbD_append] <;> simp

theorem decode (rs : Reg) : Statement (.decode rs) := by
  show (packWord 0x07 0 rs 0 0 &&& 0xFFF0FFFF#32 == 0x07000000#32) = true
  rw [packWord_eq_append (by decide), beq_iff_eq]
  apply BitVec.eq_of_getLsbD_eq
  intro i hi
  interval_cases i <;> simp only [BitVec.getLsbD_and, BitVec.getLsbD_append] <;> simp

end Sys2Proof.Laws.TableMatch
end

