-- ==== Sys2Proof/Laws/Step.lean ====
section
/-! SUPPORT. What a command, the engine and a step can do, said once each. -/

namespace Sys2Proof.Machine

/-! ### The commands, each under the condition that picks its outcome -/

theorem execModmul_error {s : State} {rd ra rb rm : Reg} (h : reg s rm = 0) :
    execModmul rd ra rb rm s = .next (raise .arithPrecondition s) := if_pos h

theorem execModmul_ok {s : State} {rd ra rb rm : Reg} (h : reg s rm ≠ 0) :
    execModmul rd ra rb rm s = .next (complete false (setReg rd ((reg s ra * reg s rb) % reg s rm) s)) := if_neg h

theorem execModexp_error {s : State} {rd rb re rm : Reg} (h : reg s rm = 0) :
    execModexp rd rb re rm s = .next (raise .arithPrecondition s) := if_pos h

theorem execModexp_ok {s : State} {rd rb re rm : Reg} (h : reg s rm ≠ 0) :
    execModexp rd rb re rm s = .next (complete false (setReg rd (modexp (reg s rb) (reg s re) (reg s rm)) s)) := if_neg h

theorem execExtgcd_error {s : State} {rinv rgcd ra rb : Reg} (hne : rinv ≠ rgcd) (h : reg s ra = 0) :
    execExtgcd rinv rgcd ra rb s = .next (raise .arithPrecondition s) := by
  simp [execExtgcd, hne, h]

theorem execExtgcd_ok {s : State} {rinv rgcd ra rb : Reg} (hne : rinv ≠ rgcd) (h : reg s ra ≠ 0) :
    execExtgcd rinv rgcd ra rb s =
      .next (complete false
        (setReg rgcd (extGcd (reg s ra) (reg s rb)).2 (setReg rinv (extGcd (reg s ra) (reg s rb)).1 s))) := by
  simp [execExtgcd, hne, h]

theorem execFermat_error {s : State} {rn : Reg} (h : reg s rn ≤ 3 ∨ reg s rn % 2 = 0) :
    execFermat rn s = .next (raise .arithPrecondition s) := if_pos h

theorem execFermat_ok {s : State} {rn : Reg} (h : ¬ (reg s rn ≤ 3 ∨ reg s rn % 2 = 0)) :
    execFermat rn s =
      .next (complete (fermat (reg s rn) s.trials.toNat s.entropy).1
        { s with entropy := (fermat (reg s rn) s.trials.toNat s.entropy).2 }) := if_neg h

theorem execEncode_tooLong {s : State} {rd : Reg} (h : s.build.bmax < s.blen.toNat) :
    execEncode rd s = .next (raise .invalidInput s) := if_pos h

theorem execEncode_zeroByte {s : State} {rd : Reg} (h : blockHasZero s s.blen.toNat = true) :
    execEncode rd s = .next (raise .invalidInput s) := by
  simp [execEncode, h]

theorem execEncode_ok {s : State} {rd : Reg} (hl : s.blen.toNat ≤ s.build.bmax)
    (hz : blockHasZero s s.blen.toNat = false) :
    execEncode rd s = .next (complete false (setReg rd (encodeBlock s s.blen.toNat) s)) := by
  simp [execEncode, hz, Nat.not_lt.2 hl]

theorem blockHasZero_iff (s : State) (len : Nat) :
    blockHasZero s len = true ↔ ∃ j, j < len ∧ bufByte s j = 0 := by
  simp [blockHasZero]

/-- A command ends in an error that wrote nothing but flags (and took draws), or completes with registers, BUF, BLEN and
draws of its own and the completion flags. -/
theorem exec_cases {i : Instr} {s t : State} (h : exec i s = .next t) :
    (∃ e ent, t = raise e { s with entropy := ent }) ∨
    ∃ p rs bf bl ent, t = complete p { s with regs := rs, buf := bf, blen := bl, entropy := ent } := by
  cases i with
  | modmul rd ra rb rm =>
    simp only [exec, execModmul] at h
    split at h <;> cases h
    · exact .inl ⟨_, s.entropy, rfl⟩
    · exact .inr ⟨_, _, s.buf, s.blen, s.entropy, rfl⟩
  | modexp rd rb re rm =>
    simp only [exec, execModexp] at h
    split at h <;> cases h
    · exact .inl ⟨_, s.entropy, rfl⟩
    · exact .inr ⟨_, _, s.buf, s.blen, s.entropy, rfl⟩
  | extgcd rinv rgcd ra rb =>
    simp only [exec, execExtgcd] at h
    split at h
    · cases h; exact .inl ⟨_, s.entropy, rfl⟩
    · split at h <;> cases h
      · exact .inl ⟨_, s.entropy, rfl⟩
      · exact .inr ⟨_, _, s.buf, s.blen, s.entropy, rfl⟩
  | fermat rn =>
    simp only [exec, execFermat] at h
    split at h <;> cases h
    · exact .inl ⟨_, s.entropy, rfl⟩
    · exact .inr ⟨_, s.regs, s.buf, s.blen, _, rfl⟩
  | primegen rd rlo rhi =>
    simp only [exec, execPrimegen] at h
    split at h
    · cases h; exact .inl ⟨_, s.entropy, rfl⟩
    · split at h <;> cases h
      · exact .inr ⟨_, _, s.buf, s.blen, _, rfl⟩
      · exact .inl ⟨_, _, rfl⟩
  | encode rd =>
    simp only [exec, execEncode] at h
    split at h
    · cases h; exact .inl ⟨_, s.entropy, rfl⟩
    · split at h <;> cases h
      · exact .inl ⟨_, s.entropy, rfl⟩
      · exact .inr ⟨_, _, s.buf, s.blen, s.entropy, rfl⟩
  | decode rs =>
    simp only [exec, execDecode] at h
    cases h
    exact .inr ⟨_, s.regs, _, _, s.entropy, rfl⟩

/-! ### The engine and the step -/

theorem performPending_command {s : State} {i : Instr} (h : decodeWord s.cmd = .command i) :
    performPending s = exec i s := by
  simp [performPending, h]

theorem performPending_illegal {s : State} {why : IllegalReason} (h : decodeWord s.cmd = .illegal why) :
    performPending s = .next (raise .illegalCommand s) := by
  simp [performPending, h]

theorem engineTurn_command {s : State} {i : Instr} (hb : s.busy = true) (hd : decodeWord s.cmd = .command i) :
    engineTurn s = exec i s := by
  rw [engineTurn, if_pos hb, performPending_command hd]

theorem engineTurn_illegal {s : State} {why : IllegalReason} (hb : s.busy = true) (hd : decodeWord s.cmd = .illegal why) :
    engineTurn s = .next (raise .illegalCommand s) := by
  rw [engineTurn, if_pos hb, performPending_illegal hd]

theorem engineTurn_idle {s : State} (hb : s.busy = false) : engineTurn s = .next s := by
  simp [engineTurn, hb]

theorem step_cons {s : State} {e : Event} {rest : List Event} (h : s.schedule = e :: rest) :
    step s = performEvent e { s with schedule := rest } := by
  simp [step, advance, h]

theorem step_nil {s : State} (h : s.schedule = []) : step s = engineTurn s := by
  simp [step, advance, h]

/-- An engine turn leaves an idle core alone, raises ILLEGAL_COMMAND for an illegal pending word, or performs the decoded
command. -/
theorem engineTurn_cases {s t : State} (h : engineTurn s = .next t) :
    (s.busy = false ∧ t = s) ∨
    (s.busy = true ∧ ∃ why, decodeWord s.cmd = .illegal why ∧ t = raise .illegalCommand s) ∨
    (s.busy = true ∧ ∃ i, decodeWord s.cmd = .command i ∧ exec i s = .next t) := by
  unfold engineTurn at h
  split at h
  · rename_i hb
    unfold performPending at h
    split at h
    · rename_i i hd
      exact .inr (.inr ⟨hb, i, hd, h⟩)
    · rename_i why hd
      cases h
      exact .inr (.inl ⟨hb, why, hd, rfl⟩)
  · rename_i hb
    cases h
    exact .inl ⟨by simpa using hb, rfl⟩

/-- A step is an engine turn with nothing scheduled, or the next scheduled event. -/
theorem step_cases {s t : State} (h : step s = .next t) :
    (s.schedule = [] ∧ engineTurn s = .next t) ∨
    (∃ rest, s.schedule = .engine :: rest ∧ engineTurn { s with schedule := rest } = .next t) ∨
    (∃ rest addr size, s.schedule = .read addr size :: rest ∧ t = busRead addr size { s with schedule := rest }) ∨
    (∃ rest addr size v, s.schedule = .write addr size v :: rest ∧
      t = busWrite addr size v { s with schedule := rest }) ∨
    ∃ rest, s.schedule = .hardReset :: rest ∧ t = resetState { s with schedule := rest } := by
  unfold step advance at h
  split at h
  · rename_i hs
    exact .inl ⟨hs, h⟩
  · rename_i e rest hs
    cases e with
    | engine => exact .inr (.inl ⟨rest, hs, h⟩)
    | read addr size => cases h; exact .inr (.inr (.inl ⟨rest, addr, size, hs, rfl⟩))
    | write addr size v => cases h; exact .inr (.inr (.inr (.inl ⟨rest, addr, size, v, hs, rfl⟩)))
    | hardReset => cases h; exact .inr (.inr (.inr (.inr ⟨rest, hs, rfl⟩)))

/-- A run of `k + 1` steps whose first step answers. -/
theorem run_succ {s t : State} (k : Nat) (h : step s = .next t) :
    Host.Core.run Sys2Proof.core (k + 1) s = Host.Core.run Sys2Proof.core k t := by
  have h' : Sys2Proof.core.step s = .next t := h
  simp [Host.Core.run, h']

/-- A host write is dropped (setting OVR) or does what its target says. -/
theorem hostWrite_cases (off : Nat) (v : Word) (s : State) :
    (s.busy = true ∧ busyLocked (targetOf s.build off) = true ∧ hostWrite off v s = { s with ovr := true }) ∨
    ((s.busy = false ∨ busyLocked (targetOf s.build off) = false) ∧
      hostWrite off v s = storeTarget v s (targetOf s.build off)) := by
  unfold hostWrite writeTarget
  by_cases h : (s.busy && busyLocked (targetOf s.build off)) = true
  · exact .inl ⟨(Bool.and_eq_true_iff.1 h).1, (Bool.and_eq_true_iff.1 h).2, if_pos h⟩
  · refine .inr ⟨?_, if_neg h⟩
    cases hb : s.busy <;> simp_all

end Sys2Proof.Machine
end

