-- ==== Sys2Proof/Laws/Window.lean ====
section
/-! SUPPORT. The host window: what each offset of R62 names, and what a host write does to a locked, an unlocked and an idle
target. -/

namespace Sys2Proof.Machine

theorem bmax_eq (b : Build) : b.bmax = 4 * b.wwords := by
  unfold Build.bmax Build.width
  omega

theorem wwords_range (b : Build) : 2 ≤ b.wwords ∧ b.wwords ≤ 64 := by
  have := b.extraWords.isLt
  unfold Build.wwords
  omega

theorem two_pow_width (b : Build) : 2 ^ b.width = 256 ^ b.bmax := by
  rw [bmax_eq, show (256 : Nat) = 2 ^ 8 from rfl, ← Nat.pow_mul]
  congr 1
  unfold Build.width
  omega

/-! ### The map (R62) -/

theorem targetOf_id (b : Build) : targetOf b 0x000 = .id := rfl
theorem targetOf_param (b : Build) : targetOf b 0x004 = .param := rfl
theorem targetOf_ctrl (b : Build) : targetOf b 0x008 = .ctrl := rfl
theorem targetOf_status (b : Build) : targetOf b 0x00C = .status := rfl
theorem targetOf_cmd (b : Build) : targetOf b 0x010 = .cmd := rfl
theorem targetOf_trials (b : Build) : targetOf b 0x014 = .trials := rfl
theorem targetOf_retryLimit (b : Build) : targetOf b 0x018 = .retryLimit := rfl
theorem targetOf_blen (b : Build) : targetOf b 0x01C = .blen := rfl

theorem controlTarget_reserved {off : Nat} (h : 0x01C < off) : controlTarget off = .reserved := by
  unfold controlTarget
  split <;> first | rfl | omega

theorem targetOf_buf (b : Build) {j : Nat} (hj : j < 64) : targetOf b (0x800 + 4 * j) = bufTarget b j := by
  unfold targetOf
  rw [if_neg (by omega), if_pos (by omega), Nat.add_sub_cancel_left, Nat.mul_div_cancel_left _ (by decide)]

theorem targetOf_reg (b : Build) (i : Reg) {k : Nat} (hk : k < 64) :
    targetOf b (0x1000 + 0x100 * i.val + 4 * k) = if k < b.wwords then .regWord i k else .reserved := by
  have hi := i.isLt
  unfold targetOf
  rw [if_neg (by omega), if_neg (by omega), if_neg (by omega), if_pos (by omega),
    show (0x1000 + 0x100 * i.val + 4 * k - 0x1000) / 0x100 = i.val by omega,
    show (0x1000 + 0x100 * i.val + 4 * k - 0x1000) % 0x100 / 4 = k by omega, regTarget]
  congr 2
  exact Fin.ext (Nat.mod_eq_of_lt hi)

theorem targetOf_reserved (b : Build) {off : Nat} (h : (0x020 ≤ off ∧ off < 0x800) ∨ (0x900 ≤ off ∧ off < 0x1000)) :
    targetOf b off = .reserved := by
  unfold targetOf
  rcases h with h | h
  · rw [if_pos h.2, controlTarget_reserved (by omega)]
  · rw [if_neg (by omega), if_neg (by omega), if_pos h.2]

/-- Only offset 0x00C names STATUS. -/
theorem off_of_targetOf_status {b : Build} {off : Nat} (h : targetOf b off = .status) : off = 0x00C := by
  unfold targetOf at h
  by_cases h1 : off < 0x800
  · rw [if_pos h1] at h
    unfold controlTarget at h
    split at h <;> first | rfl | cases h
  · rw [if_neg h1] at h
    by_cases h2 : off < 0x900
    · rw [if_pos h2, bufTarget] at h
      by_cases h3 : (off - 0x800) / 4 < b.bmax / 4
      · rw [if_pos h3] at h; cases h
      · rw [if_neg h3] at h; cases h
    · rw [if_neg h2] at h
      by_cases h3 : off < 0x1000
      · rw [if_pos h3] at h; cases h
      · rw [if_neg h3] at h
        by_cases h4 : off < 0x2000
        · rw [if_pos h4, regTarget] at h
          by_cases h5 : (off - 0x1000) % 0x100 / 4 < b.wwords
          · rw [if_pos h5] at h; cases h
          · rw [if_neg h5] at h; cases h
        · rw [if_neg h4] at h; cases h

/-! ### Host writes (R250) -/

/-- A write to a target the lock does not cover is performed at any time. -/
theorem hostWrite_unlocked {off : Nat} {v : Word} {s : State} {t : Target} (ht : targetOf s.build off = t)
    (hl : busyLocked t = false) : hostWrite off v s = storeTarget v s t := by
  simp [hostWrite, writeTarget, ht, hl]

/-- Every write is performed while BUSY = 0. -/
theorem hostWrite_idle {off : Nat} {v : Word} {s : State} {t : Target} (ht : targetOf s.build off = t)
    (hb : s.busy = false) : hostWrite off v s = storeTarget v s t := by
  simp [hostWrite, writeTarget, ht, hb]

/-- A busy-locked write while BUSY = 1 is dropped and sets OVR. -/
theorem hostWrite_locked {off : Nat} {v : Word} {s : State} {t : Target} (ht : targetOf s.build off = t)
    (hl : busyLocked t = true) (hb : s.busy = true) : hostWrite off v s = { s with ovr := true } := by
  simp [hostWrite, writeTarget, ht, hl, hb]

end Sys2Proof.Machine
end

