-- ==== Sys2Proof/Tests/Slice0.lean ====
section
/-! SUPPORT. Tests of the model, their expected results from the spec's own vectors (95_test_vectors.md) and example words
(R101), and for each statement with hypotheses a witness that meets them. -/

namespace Sys2Proof.Tests

open Sys2Proof.Machine

/-- The reset state with the given registers set. -/
def withRegs (l : List (Reg × Nat)) : State := l.foldl (fun s p => setReg p.1 p.2 s) State.reset

/-- A state with the given block in BUF and length in BLEN. -/
def withBlock (bytes : List Byte) (len : Nat) (s : State) : State :=
  { s with buf := Memory.ofBytes (fun j => bytes.getD j 0) bytes.length, blen := BitVec.ofNat 32 len }

/-- A state with the given raw draws ready. -/
def withDraws (raws : List Nat) (s : State) : State := { s with entropy := { supplied := raws, spent := 0 } }

/-- A state with the given trial count and candidate limit. -/
def withLimits (trials : BitVec 16) (limit : Word) (s : State) : State := { s with trials := trials, retryLimit := limit }

/-- The state an outcome answers, if it answers one. -/
def nextOf : Host.Outcome State Fault Refusal → Option State
  | .next t => some t
  | .fault _ => none
  | .refused _ => none

/-- One step that performs the command word `w`. -/
def perform (w : Nat) (s : State) : Option State := nextOf (step (s.withFetchWord 32 w))

/-- One step that performs one event. -/
def event (e : Event) (s : State) : Option State := nextOf (step { s with schedule := [e] })

/-! ### Well-formedness (R96 item 4): the one check, and an ill-formed term it refuses -/

theorem test_wellFormed_refuses_equal_destinations : Instr.wellFormed (.extgcd 9 9 7 8) = false := by decide
theorem test_wellFormed_accepts_different_destinations : Instr.wellFormed (.extgcd 9 10 9 9) = true := by decide

/-! ### Decoding: words written out from R91, R92 and R94, field by field -/

theorem test_decode_modmul :
    decodeWord (0x01#8 ++ 4#4 ++ 1#4 ++ 2#4 ++ 3#4 ++ 0x00#8) = .command (.modmul 4 1 2 3) := by decide
theorem test_decode_modexp :
    decodeWord (0x02#8 ++ 0#4 ++ 1#4 ++ 2#4 ++ 3#4 ++ 0x00#8) = .command (.modexp 0 1 2 3) := by decide
theorem test_decode_extgcd :
    decodeWord (0x03#8 ++ 9#4 ++ 10#4 ++ 7#4 ++ 8#4 ++ 0x00#8) = .command (.extgcd 9 10 7 8) := by decide
theorem test_decode_fermat :
    decodeWord (0x04#8 ++ 0#4 ++ 5#4 ++ 0#4 ++ 0#4 ++ 0x00#8) = .command (.fermat 5) := by decide
theorem test_decode_primegen :
    decodeWord (0x05#8 ++ 1#4 ++ 2#4 ++ 3#4 ++ 0#4 ++ 0x00#8) = .command (.primegen 1 2 3) := by decide
theorem test_decode_encode :
    decodeWord (0x06#8 ++ 5#4 ++ 0#4 ++ 0#4 ++ 0#4 ++ 0x00#8) = .command (.encode 5) := by decide
theorem test_decode_decode :
    decodeWord (0x07#8 ++ 0#4 ++ 6#4 ++ 0#4 ++ 0#4 ++ 0x00#8) = .command (.decode 6) := by decide

/-- R96, each item; V-GCD-10, V-FER-15, V-IF-09 and V-IF-10. -/
theorem test_decode_illegal :
    decodeWord 0x00000000#32 = .illegal .reservedOpcode ∧ decodeWord 0x08000000#32 = .illegal .reservedOpcode ∧
    decodeWord 0xFF000000#32 = .illegal .reservedOpcode ∧ decodeWord 0x02012301#32 = .illegal .reservedBits ∧
    decodeWord 0x04150000#32 = .illegal .unusedField ∧ decodeWord 0x04051000#32 = .illegal .unusedField ∧
    decodeWord 0x05123400#32 = .illegal .unusedField ∧ decodeWord 0x06510000#32 = .illegal .unusedField ∧
    decodeWord 0x07060100#32 = .illegal .unusedField ∧ decodeWord 0x03997800#32 = .illegal .sameDestinations := by decide

/-! ### The commands: the spec's vectors, each one step; the pair is (result, STATUS) -/

/-- V-MUL-06: the product is exact before it is reduced. -/
theorem test_modmul_wide_product :
    (perform 0x01012300 (withRegs [(1, 2 ^ 64 - 1), (2, 2 ^ 64 - 1), (3, 2 ^ 64 - 59)])).map
      (fun t => (reg t 0, hostRead 0x00C t)) = some (3364, 0x00000002#32) := by decide +kernel

/-- V-MUL-08: a source is the destination. -/
theorem test_modmul_same_register :
    (perform 0x01111200 (withRegs [(1, 9), (2, 10)])).map (fun t => (reg t 1, hostRead 0x00C t)) =
      some (1, 0x00000002#32) := by decide +kernel

/-- V-EXP-01 and program P1. -/
theorem test_modexp_result :
    (perform 0x02012300 (withRegs [(1, 4), (2, 13), (3, 497)])).map (fun t => (reg t 0, hostRead 0x00C t)) =
      some (445, 0x00000002#32) := by decide +kernel

/-- V-EXP-03: exponent 0 and modulus 1 give 0 (90 C1). -/
theorem test_modexp_zero_exponent_modulus_one :
    (perform 0x02012300 (withRegs [(0, 9), (1, 7), (2, 0), (3, 1)])).map (fun t => (reg t 0, hostRead 0x00C t)) =
      some (0, 0x00000002#32) := by decide +kernel

/-- V-GCD-01: the inverse goes to F0 and the gcd to F1. -/
theorem test_extgcd_inverse :
    (perform 0x039A7800 (withRegs [(7, 3120), (8, 17)])).map (fun t => (reg t 9, reg t 10, hostRead 0x00C t)) =
      some (2753, 1, 0x00000002#32) := by decide +kernel

/-- V-GCD-03: the coefficient of a gcd that is not 1. -/
theorem test_extgcd_not_coprime :
    (perform 0x039A7800 (withRegs [(7, 12), (8, 8)])).map (fun t => (reg t 9, reg t 10, hostRead 0x00C t)) =
      some (11, 4, 0x00000002#32) := by decide +kernel

/-- V-FER-07: 15 with TRIALS = 1 and the liar 4 drawn. -/
theorem test_fermat_liar :
    (perform 0x04050000 (withLimits 1 1 (withDraws [2] (withRegs [(5, 15)])))).map
      (fun t => (hostRead 0x00C t, t.entropy.spent)) = some (0x0000000A#32, 1) := by decide +kernel

/-- V-FER-08: 15 with TRIALS = 1 and the witness 2 drawn. -/
theorem test_fermat_composite :
    (perform 0x04050000 (withLimits 1 1 (withDraws [0] (withRegs [(5, 15)])))).map
      (fun t => (hostRead 0x00C t, t.entropy.spent)) = some (0x00000002#32, 1) := by decide +kernel

/-- V-PG-06, with one trial: the candidate 11 is drawn. -/
theorem test_primegen_prime :
    (perform 0x05123000 (withLimits 1 1 (withDraws [1, 0] (withRegs [(2, 9), (3, 11)])))).map
      (fun t => (reg t 1, hostRead 0x00C t)) = some (11, 0x00000002#32) := by decide +kernel

/-- V-PG-07, with one trial: the candidate 9 is drawn, and Rd is unchanged. -/
theorem test_primegen_exhausted :
    (perform 0x05123000 (withLimits 1 1 (withDraws [0, 0] (withRegs [(1, 77), (2, 9), (3, 11)])))).map
      (fun t => (reg t 1, hostRead 0x00C t)) = some (77, 0x00000406#32) := by decide +kernel

/-- V-ENC-03: the first byte is the least significant. -/
theorem test_encode_byte_order :
    (perform 0x06500000 (withBlock [0x41, 0x42] 2 State.reset)).map (fun t => (reg t 5, hostRead 0x00C t)) =
      some (0x4241, 0x00000002#32) := by decide +kernel

/-- V-ENC-05: a zero byte in the block. -/
theorem test_encode_zero_byte :
    (perform 0x06500000 (withBlock [0x41, 0x00, 0x42] 3 (withRegs [(5, 77)]))).map
      (fun t => (reg t 5, hostRead 0x00C t)) = some (77, 0x00000306#32) := by decide +kernel

/-- V-DEC-03: the inner zero byte ends the output, and BUF above it is zeroed. -/
theorem test_decode_inner_zero :
    (perform 0x07060000 (withBlock [1, 2, 3, 4, 5] 5 (withRegs [(6, 0x410041)]))).map
      (fun t => (t.blen, hostRead 0x800 t, hostRead 0x804 t, hostRead 0x00C t)) =
      some (1#32, 0x00000041#32, 0#32, 0x00000002#32) := by decide +kernel

/-- V-DEC-07: all ones give BMAX bytes 0xFF. -/
theorem test_decode_all_ones :
    (perform 0x07060000 (withRegs [(6, 2 ^ 1024 - 1)])).map
      (fun t => (t.blen, hostRead 0x800 t, hostRead 0x87C t, hostRead 0x00C t)) =
      some (128#32, 0xFFFFFFFF#32, 0xFFFFFFFF#32, 0x00000002#32) := by decide +kernel

/-! ### The host interface: the spec's vectors -/

/-- V-IF-02, for W = 1024, 672 and 64. -/
theorem test_param :
    paramWord { extraWords := 30, basePage := 0 } = 0x00801020#32 ∧
    paramWord { extraWords := 19, basePage := 0 } = 0x00541015#32 ∧
    paramWord { extraWords := 0, basePage := 0 } = 0x00081002#32 := by decide

/-- V-IF-06: a CMD write while BUSY = 1. -/
theorem test_busy_lock :
    (event (.write 0x010 4 0x02012300#32) (startCommand 0x05123000#32 State.reset)).map
      (fun t => (hostRead 0x010 t, hostRead 0x00C t)) = some (0x05123000#32, 0x00000011#32) := by decide +kernel

/-- V-IF-08, its last part: the STATUS write that clears DONE lowers `irq`. -/
theorem test_irq_acknowledge :
    (event (.write 0x00C 4 0x00000002#32) { State.reset with ie := true, done := true }).map irq = some false := by
  decide +kernel

/-- V-IF-12: a 16-bit access is refused. -/
theorem test_refused_write :
    (event (.write 0x014 2 7#32) State.reset).map (fun t => (t.reply, t.trials)) = some (.writeError, 100#16) := by
  decide +kernel

/-- V-IF-13: BUF's byte order. -/
theorem test_buf_word :
    (event (.write 0x800 4 0x41545441#32) State.reset).map
      (fun t => [bufByte t 0, bufByte t 1, bufByte t 2, bufByte t 3]) =
      some [0x41#8, 0x54#8, 0x54#8, 0x41#8] := by decide +kernel

/-- V-IF-14: a soft reset while a command is pending. -/
theorem test_soft_reset_while_pending :
    (event (.write 0x008 4 0x80000000#32) (startCommand 0x05123000#32 (withRegs [(1, 77)]))).map
      (fun t => (reg t 1, hostRead 0x00C t, hostRead 0x010 t, irq t)) = some (0, 0#32, 0#32, false) := by decide +kernel

/-! ### Witnesses: inputs that meet the hypotheses of the statements, clause by clause, at the ends of their ranges -/

/-- A state with a pending MODEXP. -/
def pending : State := startCommand 0x02012300#32 (withRegs [(3, 5)])

theorem witness_SoftResetTakesEffectAtOnce : (0x80000000#32).getLsbD 31 = true := by decide

theorem witness_HardwareResetDiscardsEverything :
    ({ pending with schedule := [.hardReset] } : State).schedule = .hardReset :: [] := rfl

theorem witness_DecodeInvertsEncode :
    Instr.wellFormed (.extgcd 0 15 15 0) = true ∧ Instr.wellFormed (.modmul 15 15 15 15) = true := by decide

theorem witness_EncodeInvertsDecode : decodeWord 0x030F0F00#32 = .command (.extgcd 0 15 0 15) := by decide

/-- One word for each side of each clause: both sides hold. -/
theorem witness_DecoderAgreesWithTheMasks :
    decodeWord 0x01FFFF00#32 = .command (.modmul 15 15 15 15) ∧ 0x01FFFF00#32 &&& 0xFF0000FF#32 = 0x01000000#32 ∧
    decodeWord 0x02000000#32 = .command (.modexp 0 0 0 0) ∧ 0x02000000#32 &&& 0xFF0000FF#32 = 0x02000000#32 ∧
    decodeWord 0x03FEFF00#32 = .command (.extgcd 15 14 15 15) ∧ 0x03FEFF00#32 &&& 0xFF0000FF#32 = 0x03000000#32 ∧
    decodeWord 0x040F0000#32 = .command (.fermat 15) ∧ 0x040F0000#32 &&& 0xFFF0FFFF#32 = 0x04000000#32 ∧
    decodeWord 0x05FFF000#32 = .command (.primegen 15 15 15) ∧ 0x05FFF000#32 &&& 0xFF000FFF#32 = 0x05000000#32 ∧
    decodeWord 0x06F00000#32 = .command (.encode 15) ∧ 0x06F00000#32 &&& 0xFF0FFFFF#32 = 0x06000000#32 ∧
    decodeWord 0x070F0000#32 = .command (.decode 15) ∧ 0x070F0000#32 &&& 0xFFF0FFFF#32 = 0x07000000#32 := by decide

/-- A pending illegal word for each disjunct of R96, with the engine's turn unscheduled or scheduled. -/
theorem witness_IllegalWordsCompleteWithIllegalCommand :
    illegalByR96 0x00000000#32 ∧ illegalByR96 0x08000000#32 ∧ illegalByR96 0xFF000000#32 ∧ illegalByR96 0x020123FF#32 ∧
    illegalByR96 0x03FF0000#32 ∧ illegalByR96 0x04F00000#32 ∧ illegalByR96 0x05000F00#32 ∧ illegalByR96 0x06000F00#32 ∧
    illegalByR96 0x0700F000#32 ∧ (startCommand 0x0700F000#32 State.reset).cmd = 0x0700F000#32 ∧
    (startCommand 0#32 State.reset).busy = true ∧ (startCommand 0#32 State.reset).schedule = [] ∧
    (pend 0#32 State.reset).schedule = .engine :: [] := by
  refine ⟨?_, ?_, ?_, ?_, ?_, ?_, ?_, ?_, ?_, rfl, rfl, rfl, rfl⟩ <;> unfold illegalByR96 <;> decide

theorem witness_StepRunsTheDecodedCommand :
    pending.busy = true ∧ decodeWord pending.cmd = .command (.modexp 0 1 2 3) ∧ pending.schedule = [] ∧
    (pend 0x02012300#32 State.reset).schedule = .engine :: [] ∧
    decodeTableWord 32 0x02012300 = some (.modexp 0 1 2 3) := by decide

theorem witness_IdleCoreKeepsItsState :
    State.reset.busy = false ∧ State.reset.schedule = [] ∧
    ({ State.reset with schedule := [.engine] } : State).schedule = .engine :: [] := by decide

theorem witness_PendingCommandIsEventuallyPerformed : pending.busy = true := by decide

theorem witness_CtrlReadsAndWrites : (0x7FFFFFFF#32).getLsbD 31 = false ∧ (0x80000000#32).getLsbD 31 = true := by decide

/-- BUSY both ways, and both values of the written word the statements tell apart. -/
theorem witness_TrialsAndRetryLimitReadAndWrite :
    State.reset.busy = false ∧ pending.busy = true ∧ (0xFFFF0000#32).extractLsb' 0 16 = 0#16 ∧
    (0x00000001#32).extractLsb' 0 16 ≠ 0#16 := by decide

theorem witness_CommandStart : State.reset.busy = false ∧ pending.busy = true := by decide

theorem witness_BlenStoresAnyWord : State.reset.busy = false ∧ pending.busy = true := by decide

/-- The first and last offset of each range, for W = 1024 (BMAX / 4 = WWORDS = 32). -/
theorem witness_BusyLockDropsWritesAndSetsOverrun :
    pending.busy = true ∧ 31 < pending.build.bmax / 4 ∧ 31 < pending.build.wwords ∧
    (0x020 % 4 = 0 ∧ 0x020 ≤ 0x020 ∧ 0x020 < 0x800) ∧ (0x7FC % 4 = 0 ∧ 0x020 ≤ 0x7FC ∧ 0x7FC < 0x800) ∧
    (0x900 % 4 = 0 ∧ 0x900 ≤ 0x900 ∧ 0x900 < 0x1000) ∧ (0xFFC % 4 = 0 ∧ 0x900 ≤ 0xFFC ∧ 0xFFC < 0x1000) ∧
    pending.build.bmax / 4 ≤ 32 ∧ pending.build.wwords ≤ 32 ∧ 63 < 64 ∧ 0x008 ≠ 0x00C := by decide

/-- Two words that differ in reserved bits only, for each clause; the bits and offsets at the ends of their ranges. -/
theorem witness_ReservedBitsAndOffsetsReadZero :
    ((0x00000001#32).getLsbD 0 = (0x7FFFFFFF#32).getLsbD 0 ∧ (0x00000001#32).getLsbD 31 = (0x7FFFFFFF#32).getLsbD 31) ∧
    ((0x00000012#32).getLsbD 1 = (0xFFFFFFFF#32).getLsbD 1 ∧ (0x00000012#32).getLsbD 4 = (0xFFFFFFFF#32).getLsbD 4) ∧
    (0x00000007#32).extractLsb' 0 16 = (0xFFFF0007#32).extractLsb' 0 16 ∧ 1 ≤ 31 ∧ 5 ≤ 7 ∧ 12 ≤ 31 ∧ 16 ≤ 31 ∧
    (0x020 % 4 = 0 ∧ 0x020 < 0x800) ∧ (0xFFC % 4 = 0 ∧ 0x900 ≤ 0xFFC ∧ 0xFFC < 0x1000) := by decide

/-- The last word of a register, the first and last word above it, and a core that takes writes. -/
theorem witness_RegisterWindowReadsAndWritesOneWord :
    31 < State.reset.build.wwords ∧ State.reset.build.wwords ≤ 32 ∧ State.reset.build.wwords ≤ 63 ∧ 63 < 64 ∧
    State.reset.busy = false ∧ (14 : Reg) ≠ 15 := by decide

theorem witness_BufWindowReadsAndWritesFourBytes :
    31 < State.reset.build.bmax / 4 ∧ State.reset.build.bmax / 4 ≤ 32 ∧ 63 < 64 ∧ State.reset.busy = false ∧
    State.reset.bufCanonical := by
  unfold State.bufCanonical
  decide

/-- The last offset served; a wrong size; a wrong offset; for a read and for a write. -/
theorem witness_BusServesAlignedWordsAndRefusesTheRest :
    0x1FFC < 0x2000 ∧ 0x1FFC % 4 = 0 ∧ 0x1FFE % 4 ≠ 0 ∧ 2 ≠ 4 ∧
    ({ State.reset with schedule := [.read 0x1FFC 4] } : State).schedule = .read (State.reset.build.base + 0x1FFC) 4 :: [] ∧
    ({ State.reset with schedule := [.write 0x1FFE 2 9#32] } : State).schedule =
      .write (State.reset.build.base + 0x1FFE) 2 9#32 :: [] := by decide

/-- A pending command, a dropped write and a read before it is performed. -/
theorem witness_OperandsHoldWhileACommandIsPending :
    let s : State := { pending with schedule := [.write 0x1100 4 9#32, .read 0x00C 4] }
    s.busy = true ∧ 2 ≤ s.schedule.length ∧
    (∀ e ∈ s.schedule.take 2, e.isHostAccess = true ∧ e.isSoftReset s.build = false) ∧
    ∃ t, Host.Core.run Sys2Proof.core 2 s = .next t := by
  refine ⟨by decide, by decide, by decide, _, rfl⟩

theorem witness_InterruptClearsAndRises :
    (0x00000002#32).getLsbD 1 = true ∧ State.reset.busy = false ∧ (0x00000000#32).getLsbD 0 = false ∧
    (0x80000000#32).getLsbD 31 = true ∧ (0x00000001#32).getLsbD 31 = false ∧ (0x00000001#32).getLsbD 0 = true ∧
    ({ State.reset with done := true } : State).done = true := by decide

/-- The least modulus, a zero one, and an illegal word of the OP. -/
theorem witness_ModmulResult :
    reg (withRegs [(3, 1)]) 3 ≠ 0 ∧ reg (withRegs [(3, 1)]) 4 = 0 ∧ (0x010000FF#32).extractLsb' 24 8 = 0x01#8 ∧
    (0x010000FF#32).extractLsb' 0 8 ≠ 0#8 := by decide +kernel

theorem witness_ModexpResult :
    reg (withRegs [(3, 1)]) 3 ≠ 0 ∧ reg (withRegs [(3, 1)]) 4 = 0 ∧ 1 ≤ reg (withRegs [(3, 1)]) 3 ∧
    (0x02000001#32).extractLsb' 24 8 = 0x02#8 ∧ (0x02000001#32).extractLsb' 0 8 ≠ 0#8 := by decide +kernel

theorem witness_ExtgcdResult :
    1 ≤ 1 ∧ (extGcd 3120 17).2 = 1 ∧ (9 : Reg) ≠ 10 ∧ reg (withRegs [(7, 1)]) 7 ≠ 0 ∧ reg (withRegs [(7, 1)]) 8 = 0 ∧
    (0x03120080#32).extractLsb' 24 8 = 0x03#8 ∧ (0x03120080#32).extractLsb' 0 8 ≠ 0#8 ∧
    (0x03110000#32).extractLsb' 24 8 = 0x03#8 ∧ (0x03110000#32).extractLsb' 20 4 = (0x03110000#32).extractLsb' 16 4 := by
  decide +kernel

/-- The run of the recurrence for 12 and 8, whose gcd is not 1 (V-GCD-03), and the shortest one, for b = 0. -/
theorem witness_ExtgcdResult_run :
    extGcdRun 12 8 2 (fun k => [12, 8, 4, 0].getD k 0) (fun k => [0, 1, -1, 3].getD k 0) ∧
    extGcdRun 1 0 0 (fun k => [1, 0].getD k 0) (fun k => [0, 1].getD k 0) := by
  unfold extGcdRun
  decide

/-- A pair with gcd 1, one without, the least `a`, a width that holds `a`, and the least fuel. -/
theorem witness_ExtgcdLaws :
    (1 ≤ 3120 ∧ (extGcd 3120 17).2 = 1 ∧ 2 ≤ 3120) ∧ (1 ≤ 12 ∧ (extGcd 12 8).2 ≠ 1) ∧ 1 ≤ 1 ∧ 1 < 2 ^ 1 ∧ 17 + 1 ≤ 18 := by
  decide +kernel

/-- The least legal n, the two error cases, and an illegal word for each field. -/
theorem witness_FermatResult :
    (3 < reg (withRegs [(5, 5)]) 5 ∧ reg (withRegs [(5, 5)]) 5 % 2 = 1) ∧ reg (withRegs [(5, 3)]) 5 ≤ 3 ∧
    reg (withRegs [(5, 28)]) 5 % 2 = 0 ∧
    [0x04100000#32, 0x04001000#32, 0x04000100#32, 0x04000001#32].all (fun c => decide (c.extractLsb' 24 8 = 0x04#8 ∧
      (c.extractLsb' 20 4 ≠ 0#4 ∨ c.extractLsb' 12 4 ≠ 0#4 ∨ c.extractLsb' 8 4 ≠ 0#4 ∨ c.extractLsb' 0 8 ≠ 0#8))) = true := by
  decide +kernel

/-- A prime, a composite without liars that answers a next state, a liar of 15 (V-FER-06), and the end witnesses of 561. -/
theorem witness_FermatVerdictsAreSound :
    (3 < reg (withRegs [(5, 5)]) 5 ∧ reg (withRegs [(5, 5)]) 5 % 2 = 1 ∧ Nat.Prime (reg (withRegs [(5, 5)]) 5)) ∧
    (3 < reg (withRegs [(5, 9)]) 5 ∧ reg (withRegs [(5, 9)]) 5 % 2 = 1 ∧ ¬ Nat.Prime (reg (withRegs [(5, 9)]) 5)) ∧
    (withRegs [(5, 9)]).trials ≠ 0#16 ∧ (∀ a, 2 ≤ a → a ≤ 9 - 2 → fermatHolds 9 a = false) ∧
    (nextOf (exec (.fermat 5) (withLimits 1 1 (withDraws [0] (withRegs [(5, 9)]))))).map (·.prime) = some false ∧
    (Nat.Prime 5 ∧ 2 ≤ 3 ∧ 3 ≤ 5 - 2) ∧ (9 = 9 ∧ 2 ≤ 7 ∧ 7 ≤ 9 - 2) ∧
    (reg (withRegs [(5, 15)]) 5 = 15 ∧ 2 ≤ 4 ∧ 4 ≤ 15 - 2 ∧ fermatHolds 15 4 = true) ∧
    2 ≤ 2 ∧ 559 ≤ 559 ∧ Nat.Coprime 2 561 ∧ Nat.Coprime 559 561 := by
  refine ⟨⟨by decide +kernel, by decide +kernel, ?_⟩, ⟨by decide +kernel, by decide +kernel, ?_⟩, by decide, ?_,
    by decide +kernel, by norm_num, by decide, by decide +kernel, by decide, by decide, by decide +kernel, by decide +kernel⟩
  · rw [show reg (withRegs [(5, 5)]) 5 = 5 by decide +kernel]; norm_num
  · rw [show reg (withRegs [(5, 9)]) 5 = 9 by decide +kernel]; norm_num
  · intro a h2 h7
    interval_cases a <;> decide

/-- The least legal range; [9, 11] with the candidate 9 and its witness 2, which fails, then the candidate 11, which passes, as
candidate number 1 of two, and the candidate 9 drawn twice (V-PG-06, V-PG-07); a pass at number 0; the three error cases; an
illegal word for each field. -/
theorem witness_PrimegenResult :
    let mixed : Entropy := { supplied := [0, 0, 1, 0], spent := 0 }
    let failing : Entropy := { supplied := [0, 0, 0, 0], spent := 0 }
    (5 ≤ 5 ∧ 5 ≤ 5 ∧ (5 < 5 ∨ 5 % 2 = 1)) ∧
    ((∀ j, j < 1 → candidatePasses 9 11 1 (candidateStart 9 11 1 j mixed) = false) ∧
      candidatePasses 9 11 1 (candidateStart 9 11 1 1 mixed) = true) ∧
    candidatePasses 9 11 1 (candidateStart 9 11 1 0 { supplied := [1, 0], spent := 0 }) = true ∧
    (∀ j, j < 2 → candidatePasses 9 11 1 (candidateStart 9 11 1 j failing) = false) ∧
    4 < 5 ∧ 9 < 10 ∧ (8 = 8 ∧ 8 % 2 = 0) ∧
    [0x05000100#32, 0x05000080#32].all (fun c => decide (c.extractLsb' 24 8 = 0x05#8 ∧
      (c.extractLsb' 8 4 ≠ 0#4 ∨ c.extractLsb' 0 8 ≠ 0#8))) = true := by decide +kernel

/-- [5, 7], whose odd members 5 and 7 are prime (V-PG-01). -/
theorem witness_PrimegenSucceedsOnPrimes :
    let s := withRegs [(2, 5), (3, 7)]
    5 ≤ reg s 2 ∧ reg s 2 ≤ reg s 3 ∧ (reg s 2 < reg s 3 ∨ reg s 2 % 2 = 1) ∧ s.retryLimit ≠ 0#32 ∧
    ∀ c, c % 2 = 1 → reg s 2 ≤ c → c ≤ reg s 3 → Nat.Prime c := by
  refine ⟨by decide +kernel, by decide +kernel, by decide +kernel, by decide, fun c ho h5 h7 => ?_⟩
  rw [show reg (withRegs [(2, 5), (3, 7)]) 2 = 5 by decide +kernel] at h5
  rw [show reg (withRegs [(2, 5), (3, 7)]) 3 = 7 by decide +kernel] at h7
  interval_cases c <;> first | (exfalso; omega) | norm_num

/-- [9, 11] with two candidates: it completes with 11 after 9 failed, or exhausts on 9, and it holds the odd composite 9. -/
theorem witness_PrimegenLaws :
    let s := withLimits 1 2 (withRegs [(2, 9), (3, 11)])
    5 ≤ reg s 2 ∧ reg s 2 ≤ reg s 3 ∧ (reg s 2 < reg s 3 ∨ reg s 2 % 2 = 1) ∧ s.trials ≠ 0#16 ∧ s.retryLimit ≠ 0#32 ∧
    (nextOf (exec (.primegen 1 2 3) (withDraws [0, 0, 1, 0] s))).map (·.err) = some false ∧
    (nextOf (exec (.primegen 1 2 3) (withDraws [0, 0, 0, 0] s))).map (fun t => (t.err, t.ecode)) = some (true, 4#4) ∧
    (9 % 2 = 1 ∧ reg s 2 ≤ 9 ∧ 9 ≤ reg s 3 ∧ ¬ Nat.Prime 9) := by
  refine ⟨by decide +kernel, by decide +kernel, by decide +kernel, by decide, by decide, by decide +kernel,
    by decide +kernel, rfl, by decide +kernel, by decide +kernel, by norm_num⟩

/-- The ends of the ranges, and the draws of a PRIMEGEN on [9, 11] that rejects 9 and takes 11. -/
theorem witness_DrawsAreFreeWithinTheirRange :
    5 ≤ 5 ∧ (5 ≤ 5 ∧ (5 < 5 ∨ 5 % 2 = 1)) ∧ (∀ a ∈ [2, 3], 2 ≤ a ∧ a ≤ 5 - 2) ∧
    ∀ d ∈ [(Draw.candidate 9 11, 9), (Draw.witness 9, 2), (Draw.candidate 9 11, 11), (Draw.witness 11, 9)],
      d.1.admits d.2 := by
  refine ⟨by decide, by decide, by decide, ?_⟩
  simp [Draw.admits]

/-- A full buffer without a zero byte, an empty block, a block one byte too long, a zero byte, and an illegal word for each
field (V-ENC-01, V-ENC-05, V-ENC-06, V-ENC-08). -/
theorem witness_EncodeResult :
    let full := withBlock (List.replicate 128 0xFF#8) 128 State.reset
    (full.blen.toNat ≤ full.build.bmax ∧ ∀ j, j < full.blen.toNat → bufByte full j ≠ 0#8) ∧
    State.reset.blen.toNat = 0 ∧ (withBlock [] 129 State.reset).build.bmax < (withBlock [] 129 State.reset).blen.toNat ∧
    (1 < 3 ∧ bufByte (withBlock [0x41, 0x00, 0x42] 3 State.reset) 1 = 0#8) ∧
    [0x06010000#32, 0x06001000#32, 0x06000100#32, 0x06000001#32].all (fun c => decide (c.extractLsb' 24 8 = 0x06#8 ∧
      (c.extractLsb' 16 4 ≠ 0#4 ∨ c.extractLsb' 12 4 ≠ 0#4 ∨ c.extractLsb' 8 4 ≠ 0#4 ∨ c.extractLsb' 0 8 ≠ 0#8))) = true := by
  decide +kernel

/-- The greatest value a register holds, and an illegal word for each field. -/
theorem witness_DecodeResult :
    reg (withRegs [(6, 2 ^ 1024 - 1)]) 6 < 2 ^ (withRegs [(6, 2 ^ 1024 - 1)]).build.width ∧
    [0x07100000#32, 0x07001000#32, 0x07000100#32, 0x07000001#32].all (fun c => decide (c.extractLsb' 24 8 = 0x07#8 ∧
      (c.extractLsb' 20 4 ≠ 0#4 ∨ c.extractLsb' 12 4 ≠ 0#4 ∨ c.extractLsb' 8 4 ≠ 0#4 ∨ c.extractLsb' 0 8 ≠ 0#8))) = true := by
  decide +kernel

theorem witness_CodecRoundTrips :
    let s := withBlock [0x41, 0x42] 2 (withRegs [(6, 0x410041)])
    s.blen.toNat ≤ s.build.bmax ∧ (∀ j, j < s.blen.toNat → bufByte s j ≠ 0#8) ∧ reg s 6 < 2 ^ s.build.width := by
  decide +kernel

theorem witness_EncodedWordsMatchTheBufferWords :
    let s := withBlock [0x41, 0x54, 0x54, 0x41] 4 State.reset
    s.blen.toNat ≤ s.build.bmax ∧ (∀ i, i < s.blen.toNat → bufByte s i ≠ 0#8) ∧ 4 * 0 + 3 < s.blen.toNat := by
  decide +kernel

/-- Each form answers a next state. -/
theorem witness_OneDestinationCommandsFrame :
    (∃ t, exec (.modmul 0 1 2 3) State.reset = .next t) ∧ (∃ t, exec (.modexp 0 1 2 3) State.reset = .next t) ∧
    (∃ t, exec (.primegen 1 2 3) (withRegs [(2, 8), (3, 8)]) = .next t) ∧ ∃ t, exec (.encode 5) State.reset = .next t :=
  ⟨⟨_, rfl⟩, ⟨_, rfl⟩, ⟨_, rfl⟩, ⟨_, rfl⟩⟩

theorem witness_ExtgcdFrame : ∃ t, exec (.extgcd 9 10 7 8) (withRegs [(7, 12)]) = .next t := ⟨_, rfl⟩

theorem witness_FermatFrame : ∃ t, exec (.fermat 5) State.reset = .next t := ⟨_, rfl⟩

theorem witness_DecodeFrame :
    (∃ t, exec (.decode 6) State.reset = .next t) ∧ State.reset.bufCanonical ∧ State.reset.build.bmax ≤ 128 := by
  refine ⟨⟨_, rfl⟩, ?_, by decide⟩
  unfold State.bufCanonical
  decide

theorem witness_ErrorCompletionIsPrecise :
    (nextOf (exec (.modmul 0 1 2 3) State.reset)).map (·.err) = some true := by decide +kernel

/-- Each error code, and the verdict, from some command. -/
theorem witness_CompletionFlagsAndErrorCodes :
    (nextOf (exec (.extgcd 9 9 7 8) State.reset)).map (·.ecode) = some 1#4 ∧
    (nextOf (exec (.modexp 0 1 2 3) State.reset)).map (·.ecode) = some 2#4 ∧
    (nextOf (exec (.encode 5) (withBlock [0] 1 State.reset))).map (·.ecode) = some 3#4 ∧
    (nextOf (exec (.primegen 1 2 3) (withLimits 1 1 (withDraws [0, 0] (withRegs [(2, 9), (3, 9)]))))).map (·.ecode) =
      some 4#4 ∧
    (nextOf (exec (.fermat 5) (withLimits 1 1 (withDraws [0] (withRegs [(5, 5)]))))).map (·.prime) = some true := by
  decide +kernel

theorem witness_OtherCommandsIgnoreTheEntropySource :
    (∀ rn, Instr.encode 5 ≠ .fermat rn) ∧ ∀ rd rlo rhi, Instr.encode 5 ≠ .primegen rd rlo rhi := by
  exact ⟨fun _ h => (nomatch h), fun _ _ _ h => (nomatch h)⟩

/-- A legal state whose next step performs a command that changes it. -/
theorem witness_StepKeepsRegistersInRange :
    (∀ i : Reg, reg (withBlock [0x41, 0x42] 2 (withRegs [(6, 2 ^ 1024 - 1)])) i < 2 ^ State.reset.build.width) ∧
    (perform 0x06500000 (withBlock [0x41, 0x42] 2 (withRegs [(6, 2 ^ 1024 - 1)]))).map (reg · 5) = some 0x4241 := by
  decide +kernel

theorem witness_StepKeepsBufCanonical :
    (withBlock [0x41, 0x00, 0x42] 3 (withRegs [(6, 0x43)])).bufCanonical ∧
    (perform 0x07060000 (withBlock [0x41, 0x00, 0x42] 3 (withRegs [(6, 0x43)]))).map (·.buf) = some [(0, 0x43#8)] := by
  unfold State.bufCanonical
  decide +kernel

theorem witness_StepKeepsLimitsAndFlags :
    pending.limitsNonzero ∧ pending.flagsConsistent ∧ (nextOf (step pending)).map (·.done) = some true := by
  unfold State.limitsNonzero State.flagsConsistent
  decide +kernel

/-- A state whose STATUS holds ARITH_PRECONDITION from the MODEXP word in CMD, and a CMD write that clears it. -/
theorem witness_StepKeepsStatusMatchingTheCommand :
    ({ State.reset with cmd := 0x02012300#32, ecode := 2#4 } : State).statusMatchesCommand ∧
    (event (.write 0x010 4 0x02012300#32) { State.reset with cmd := 0x02012300#32, ecode := 2#4 }).map (·.ecode) =
      some 0#4 := by
  refine ⟨⟨fun h => absurd h (by decide), fun h => absurd h (by decide), fun _ => ⟨.modexp 0 1 2 3, by decide, ?_, ?_⟩,
    fun h => absurd h (by decide), fun h => absurd h (by decide)⟩, by decide +kernel⟩
  · exact fun _ h => by cases h
  · exact fun _ h => by cases h

end Sys2Proof.Tests
end

section
/-! SUPPORT. Every step keeps every operand register in [0, 2^W) and never changes the build (R7, R22, R207): which value
each command writes fits its register, and which registers a host access can write. -/

namespace Sys2Proof.Machine

/-! ### The values that commands write -/

/-- Each iteration leaves a result already reduced or reduces it again (R126). -/
theorem modexpLoop_lt {m result : Nat} (fuel base exp : Nat) (hm : 0 < m) (hr : result < m) :
    modexpLoop fuel result base exp m < m := by
  induction fuel generalizing result base exp with
  | zero => exact hr
  | succ fuel ih =>
    rw [modexpLoop]
    split
    · exact hr
    · apply ih
      split
      · exact Nat.mod_lt _ hm
      · exact hr

theorem modexp_lt (b e : Nat) {m : Nat} (hm : 0 < m) : modexp b e m < m :=
  modexpLoop_lt _ _ _ hm (Nat.mod_lt _ hm)

/-- The remainders of R141 never grow, so the last of them is below any bound on the first two. -/
theorem extGcdLoop_snd_lt {bound oldR r : Nat} (fuel : Nat) (oldT t : Int) (ho : oldR < bound) (hr : r < bound) :
    (extGcdLoop fuel oldR r oldT t).2 < bound := by
  induction fuel generalizing oldR r oldT t with
  | zero => exact ho
  | succ fuel ih =>
    rw [extGcdLoop]
    split
    · exact ho
    · exact ih _ _ hr (Nat.lt_of_le_of_lt (Nat.sub_le _ _) ho)

theorem extGcd_snd_lt {bound a b : Nat} (ha : a < bound) (hb : b < bound) : (extGcd a b).2 < bound :=
  extGcdLoop_snd_lt _ _ _ ha hb

theorem extGcd_fst_lt {a : Nat} (b : Nat) (ha : 0 < a) : (extGcd a b).1 < a := by
  have hlt := Int.emod_lt_of_pos (extGcdLoop (b + 1) a b 0 1).1 (Int.natCast_pos.2 ha)
  change (_ % (a : Int)).toNat < a
  omega

/-- The candidate PRIMEGEN returns is one it drew, so it is odd and lies in the range (R150, R222). -/
theorem primegenLoop_range {lo hi T L c : Nat} {e : Entropy} (h : lo ≤ hi) (hodd : lo % 2 = 1 ∨ lo < hi)
    (hc : (primegenLoop lo hi T L e).1 = some c) : c % 2 = 1 ∧ lo ≤ c ∧ c ≤ hi := by
  induction L generalizing e with
  | zero => cases hc
  | succ L ih =>
    simp only [primegenLoop] at hc
    split at hc
    · cases hc
      exact candidateOf_range h hodd _
    · exact ih hc

theorem encodeBlock_lt (s : State) (len : Nat) : encodeBlock s len < 256 ^ len := by
  induction len with
  | zero => exact Nat.one_pos
  | succ len ih =>
    have hbyte : (bufByte s len).toNat ≤ 255 := Nat.le_of_lt_succ (bufByte s len).isLt
    calc encodeBlock s len + (bufByte s len).toNat * 256 ^ len
        < 256 ^ len + 255 * 256 ^ len := Nat.add_lt_add_of_lt_of_le ih (Nat.mul_le_mul_right _ hbyte)
      _ = 256 ^ (len + 1) := by ring

/-! ### PRIMEGEN and the ill-formed EXTGCD, each under the condition that picks its outcome -/

theorem execExtgcd_sameDestinations {s : State} {rinv rgcd ra rb : Reg} (h : rinv = rgcd) :
    execExtgcd rinv rgcd ra rb s = .next (raise .illegalCommand s) := if_pos h

theorem execPrimegen_error {s : State} {rd rlo rhi : Reg}
    (h : reg s rlo < 5 ∨ reg s rhi < reg s rlo ∨ (reg s rlo = reg s rhi ∧ reg s rlo % 2 = 0)) :
    execPrimegen rd rlo rhi s = .next (raise .arithPrecondition s) := if_pos h

theorem execPrimegen_found {s : State} {rd rlo rhi : Reg} {c : Nat}
    (h : ¬ (reg s rlo < 5 ∨ reg s rhi < reg s rlo ∨ (reg s rlo = reg s rhi ∧ reg s rlo % 2 = 0)))
    (hc : (primegenLoop (reg s rlo) (reg s rhi) s.trials.toNat s.retryLimit.toNat s.entropy).1 = some c) :
    execPrimegen rd rlo rhi s = .next (complete false (setReg rd c { s with
      entropy := (primegenLoop (reg s rlo) (reg s rhi) s.trials.toNat s.retryLimit.toNat s.entropy).2 })) := by
  simp [execPrimegen, h, hc]

theorem execPrimegen_exhausted {s : State} {rd rlo rhi : Reg}
    (h : ¬ (reg s rlo < 5 ∨ reg s rhi < reg s rlo ∨ (reg s rlo = reg s rhi ∧ reg s rlo % 2 = 0)))
    (hc : (primegenLoop (reg s rlo) (reg s rhi) s.trials.toNat s.retryLimit.toNat s.entropy).1 = none) :
    execPrimegen rd rlo rhi s = .next (raise .generationExhausted { s with
      entropy := (primegenLoop (reg s rlo) (reg s rhi) s.trials.toNat s.retryLimit.toNat s.entropy).2 }) := by
  simp [execPrimegen, h, hc]

/-! ### The range and the shared operations -/

theorem regsInRange_congr {s t : State} (hr : t.regs = s.regs) (hb : t.build = s.build) (hs : s.regsInRange) :
    t.regsInRange := fun i => by
  rw [reg_congr hr, hb]
  exact hs i

theorem setReg_regsInRange {s : State} {i : Reg} {v : Nat} (hs : s.regsInRange) (hv : v < 2 ^ s.build.width) :
    (setReg i v s).regsInRange := fun j => by
  rw [reg_setReg, setReg_build]
  split
  · exact hv
  · exact hs j

theorem raise_regsInRange {s : State} (e : ErrorCause) (hs : s.regsInRange) : (raise e s).regsInRange :=
  regsInRange_congr rfl rfl hs

theorem complete_regsInRange {s : State} (p : Bool) (hs : s.regsInRange) : (complete p s).regsInRange :=
  regsInRange_congr rfl rfl hs

theorem resetState_regsInRange (s : State) : (resetState s).regsInRange := fun i => by
  rw [reg_resetState]
  exact Nat.two_pow_pos _

/-! ### The commands -/

section Commands
variable {s t : State}

theorem execModmul_regsInRange {rd ra rb rm : Reg} (hs : s.regsInRange) (h : execModmul rd ra rb rm s = .next t) :
    t.regsInRange := by
  by_cases hm : reg s rm = 0
  · cases (execModmul_error hm).symm.trans h
    exact raise_regsInRange _ hs
  · cases (execModmul_ok hm).symm.trans h
    have hlt := Nat.mod_lt (reg s ra * reg s rb) (Nat.pos_of_ne_zero hm)
    exact complete_regsInRange _ (setReg_regsInRange hs (hlt.trans (hs rm)))

theorem execModexp_regsInRange {rd rb re rm : Reg} (hs : s.regsInRange) (h : execModexp rd rb re rm s = .next t) :
    t.regsInRange := by
  by_cases hm : reg s rm = 0
  · cases (execModexp_error hm).symm.trans h
    exact raise_regsInRange _ hs
  · cases (execModexp_ok hm).symm.trans h
    have hlt := modexp_lt (reg s rb) (reg s re) (Nat.pos_of_ne_zero hm)
    exact complete_regsInRange _ (setReg_regsInRange hs (hlt.trans (hs rm)))

theorem execExtgcd_regsInRange {rinv rgcd ra rb : Reg} (hs : s.regsInRange)
    (h : execExtgcd rinv rgcd ra rb s = .next t) : t.regsInRange := by
  by_cases hne : rinv = rgcd
  · cases (execExtgcd_sameDestinations hne).symm.trans h
    exact raise_regsInRange _ hs
  · by_cases ha : reg s ra = 0
    · cases (execExtgcd_error hne ha).symm.trans h
      exact raise_regsInRange _ hs
    · cases (execExtgcd_ok hne ha).symm.trans h
      have hinv := extGcd_fst_lt (reg s rb) (Nat.pos_of_ne_zero ha)
      have hgcd := extGcd_snd_lt (hs ra) (hs rb)
      exact complete_regsInRange _ (setReg_regsInRange (setReg_regsInRange hs (hinv.trans (hs ra))) hgcd)

theorem execFermat_regsInRange {rn : Reg} (hs : s.regsInRange) (h : execFermat rn s = .next t) : t.regsInRange := by
  by_cases hn : reg s rn ≤ 3 ∨ reg s rn % 2 = 0
  · cases (execFermat_error hn).symm.trans h
    exact raise_regsInRange _ hs
  · cases (execFermat_ok hn).symm.trans h
    exact regsInRange_congr rfl rfl hs

theorem execPrimegen_regsInRange {rd rlo rhi : Reg} (hs : s.regsInRange) (h : execPrimegen rd rlo rhi s = .next t) :
    t.regsInRange := by
  by_cases hr : reg s rlo < 5 ∨ reg s rhi < reg s rlo ∨ (reg s rlo = reg s rhi ∧ reg s rlo % 2 = 0)
  · cases (execPrimegen_error hr).symm.trans h
    exact raise_regsInRange _ hs
  · cases hc : (primegenLoop (reg s rlo) (reg s rhi) s.trials.toNat s.retryLimit.toNat s.entropy).1 with
    | none =>
      cases (execPrimegen_exhausted hr hc).symm.trans h
      exact regsInRange_congr rfl rfl hs
    | some c =>
      cases (execPrimegen_found hr hc).symm.trans h
      obtain ⟨-, -, hhi⟩ := primegenLoop_range (by omega) (by omega) hc
      exact complete_regsInRange _
        (setReg_regsInRange (regsInRange_congr rfl rfl hs) (Nat.lt_of_le_of_lt hhi (hs rhi)))

theorem execEncode_regsInRange {rd : Reg} (hs : s.regsInRange) (h : execEncode rd s = .next t) : t.regsInRange := by
  rcases Nat.lt_or_ge s.build.bmax s.blen.toNat with hl | hl
  · cases (execEncode_tooLong hl).symm.trans h
    exact raise_regsInRange _ hs
  · cases hz : blockHasZero s s.blen.toNat with
    | true =>
      cases (execEncode_zeroByte hz).symm.trans h
      exact raise_regsInRange _ hs
    | false =>
      cases (execEncode_ok hl hz).symm.trans h
      have hlt : encodeBlock s s.blen.toNat < 2 ^ s.build.width := by
        rw [two_pow_width]
        exact Nat.lt_of_lt_of_le (encodeBlock_lt s _) (Nat.pow_le_pow_right (by decide) hl)
      exact complete_regsInRange _ (setReg_regsInRange hs hlt)

theorem execDecode_regsInRange {rs : Reg} (hs : s.regsInRange) (h : execDecode rs s = .next t) : t.regsInRange := by
  cases h
  exact regsInRange_congr rfl rfl hs

/-- No command overflows a register (R7). -/
theorem exec_regsInRange {i : Instr} (hs : s.regsInRange) (h : exec i s = .next t) : t.regsInRange := by
  cases i with
  | modmul => exact execModmul_regsInRange hs h
  | modexp => exact execModexp_regsInRange hs h
  | extgcd => exact execExtgcd_regsInRange hs h
  | fermat => exact execFermat_regsInRange hs h
  | primegen => exact execPrimegen_regsInRange hs h
  | encode => exact execEncode_regsInRange hs h
  | decode => exact execDecode_regsInRange hs h

theorem exec_build {i : Instr} (h : exec i s = .next t) : t.build = s.build := by
  rcases exec_cases h with ⟨_, _, rfl⟩ | ⟨_, _, _, _, _, rfl⟩ <;> rfl

theorem engineTurn_regsInRange (hs : s.regsInRange) (h : engineTurn s = .next t) : t.regsInRange := by
  rcases engineTurn_cases h with ⟨-, rfl⟩ | ⟨-, _, -, rfl⟩ | ⟨-, _, -, hexec⟩
  · exact hs
  · exact raise_regsInRange _ hs
  · exact exec_regsInRange hs hexec

theorem engineTurn_build (h : engineTurn s = .next t) : t.build = s.build := by
  rcases engineTurn_cases h with ⟨-, rfl⟩ | ⟨-, _, -, rfl⟩ | ⟨-, _, -, hexec⟩
  · rfl
  · rfl
  · exact exec_build hexec

end Commands

/-! ### Host accesses -/

/-- A register word that an offset names lies in its register (R64). -/
theorem lt_wwords_of_targetOf_regWord {b : Build} {off k : Nat} {i : Reg} (h : targetOf b off = .regWord i k) :
    k < b.wwords := by
  unfold targetOf controlTarget bufTarget regTarget at h
  split_ifs at h
  · split at h <;> cases h
  · cases h
    assumption

/-- What a host write that is not dropped can do to the registers and the build: a reset, a write to one register word, or
nothing (R68). -/
theorem storeTarget_cases (v : Word) (s : State) (t : Target) :
    storeTarget v s t = resetState s ∨
    (∃ i k, t = .regWord i k ∧ storeTarget v s t = writeRegWord i k v s) ∨
    ((storeTarget v s t).regs = s.regs ∧ (storeTarget v s t).build = s.build) := by
  cases t with
  | ctrl =>
    simp only [storeTarget, writeCtrl]
    split
    · exact .inl rfl
    · exact .inr (.inr ⟨rfl, rfl⟩)
  | trials =>
    simp only [storeTarget, writeTrials]
    split <;> exact .inr (.inr ⟨rfl, rfl⟩)
  | retryLimit =>
    simp only [storeTarget, writeRetryLimit]
    split <;> exact .inr (.inr ⟨rfl, rfl⟩)
  | regWord i k => exact .inr (.inl ⟨i, k, rfl, rfl⟩)
  | id | param | status | cmd | blen | bufWord | reserved => exact .inr (.inr ⟨rfl, rfl⟩)

theorem storeTarget_build (v : Word) (s : State) (t : Target) : (storeTarget v s t).build = s.build := by
  rcases storeTarget_cases v s t with h | ⟨_, _, -, h⟩ | ⟨-, h⟩
  · rw [h, resetState_build]
  · rw [h, writeRegWord, setReg_build]
  · exact h

theorem hostWrite_build (off : Nat) (v : Word) (s : State) : (hostWrite off v s).build = s.build := by
  rcases hostWrite_cases off v s with ⟨-, -, h⟩ | ⟨-, h⟩
  · rw [h]
  · rw [h, storeTarget_build]

/-- A write to a word of the register keeps the register below 2^W, since W is a whole number of words (R5, R64). -/
theorem writeRegWord_regsInRange {s : State} {k : Nat} (i : Reg) (v : Word) (hs : s.regsInRange)
    (hk : k < s.build.wwords) : (writeRegWord i k v s).regsInRange :=
  setReg_regsInRange hs (replaceWord_lt v (hs i) hk)

theorem hostWrite_regsInRange {s : State} (off : Nat) (v : Word) (hs : s.regsInRange) :
    (hostWrite off v s).regsInRange := by
  rcases hostWrite_cases off v s with ⟨-, -, h⟩ | ⟨-, h⟩
  · rw [h]
    exact regsInRange_congr rfl rfl hs
  · rw [h]
    rcases storeTarget_cases v s (targetOf s.build off) with h | ⟨i, k, ht, h⟩ | ⟨hr, hb⟩
    · rw [h]
      exact resetState_regsInRange s
    · rw [h]
      exact writeRegWord_regsInRange i v hs (lt_wwords_of_targetOf_regWord ht)
    · exact regsInRange_congr hr hb hs

theorem busRead_build (addr size : Nat) (s : State) : (busRead addr size s).build = s.build := by
  obtain ⟨r, k, h⟩ := busRead_cases addr size s
  rw [h]

theorem busRead_regsInRange {s : State} (addr size : Nat) (hs : s.regsInRange) : (busRead addr size s).regsInRange := by
  obtain ⟨r, k, h⟩ := busRead_cases addr size s
  rw [h]
  exact regsInRange_congr rfl rfl hs

theorem busWrite_build (addr size : Nat) (v : Word) (s : State) : (busWrite addr size v s).build = s.build := by
  rcases busWrite_cases addr size v s with ⟨off, -, -, h⟩ | ⟨r, h⟩
  · rw [h]
    exact hostWrite_build off v s
  · rw [h]

theorem busWrite_regsInRange {s : State} (addr size : Nat) (v : Word) (hs : s.regsInRange) :
    (busWrite addr size v s).regsInRange := by
  rcases busWrite_cases addr size v s with ⟨off, -, -, h⟩ | ⟨r, h⟩
  · rw [h]
    exact regsInRange_congr rfl rfl (hostWrite_regsInRange off v hs)
  · rw [h]
    exact regsInRange_congr rfl rfl hs

/-! ### The step -/

/-- W and BASE are fixed in the hardware (R5, R61). -/
theorem step_build {s t : State} (h : step s = .next t) : t.build = s.build := by
  rcases step_cases h with ⟨-, h⟩ | ⟨_, -, h⟩ | ⟨_, _, _, -, rfl⟩ | ⟨_, _, _, _, -, rfl⟩ | ⟨_, -, rfl⟩
  · exact engineTurn_build h
  · exact (engineTurn_build h).trans rfl
  · exact busRead_build _ _ _
  · exact busWrite_build _ _ _ _
  · rfl

theorem step_regsInRange {s t : State} (hs : s.regsInRange) (h : step s = .next t) : t.regsInRange := by
  have hrest (rest : List Event) : State.regsInRange { s with schedule := rest } := regsInRange_congr rfl rfl hs
  rcases step_cases h with ⟨-, h⟩ | ⟨rest, -, h⟩ | ⟨rest, _, _, -, rfl⟩ | ⟨rest, _, _, _, -, rfl⟩ | ⟨_, -, rfl⟩
  · exact engineTurn_regsInRange hs h
  · exact engineTurn_regsInRange (hrest rest) h
  · exact busRead_regsInRange _ _ (hrest rest)
  · exact busWrite_regsInRange _ _ _ (hrest rest)
  · exact resetState_regsInRange _

/-- Settles O48: the engine, a host access and a reset each keep the range and the build. -/
theorem stepKeepsRegistersInRange : Obligations.StepKeepsRegistersInRange :=
  fun _ _ hs h => ⟨step_regsInRange hs h, step_build h⟩

end Sys2Proof.Machine
end

section
/-! SUPPORT. What every step keeps of BUF, the limits and the flags (R26 to R32, R200), what each command can change (R32,
R205, R208), and why a pending command's operands hold still (R36, R250, R252). -/

namespace Sys2Proof.Machine

/-! ### The ways each command can end -/

section Commands
variable {s t : State}

theorem execModmul_cases {rd ra rb rm : Reg} (h : execModmul rd ra rb rm s = .next t) :
    t = raise .arithPrecondition s ∨ ∃ v, t = complete false (setReg rd v s) := by
  by_cases hm : reg s rm = 0
  · cases (execModmul_error hm).symm.trans h
    exact .inl rfl
  · cases (execModmul_ok hm).symm.trans h
    exact .inr ⟨_, rfl⟩

theorem execModexp_cases {rd rb re rm : Reg} (h : execModexp rd rb re rm s = .next t) :
    t = raise .arithPrecondition s ∨ ∃ v, t = complete false (setReg rd v s) := by
  by_cases hm : reg s rm = 0
  · cases (execModexp_error hm).symm.trans h
    exact .inl rfl
  · cases (execModexp_ok hm).symm.trans h
    exact .inr ⟨_, rfl⟩

theorem execExtgcd_cases {rinv rgcd ra rb : Reg} (h : execExtgcd rinv rgcd ra rb s = .next t) :
    (rinv = rgcd ∧ t = raise .illegalCommand s) ∨ t = raise .arithPrecondition s ∨
    ∃ inv gcd, t = complete false (setReg rgcd gcd (setReg rinv inv s)) := by
  by_cases hne : rinv = rgcd
  · cases (execExtgcd_sameDestinations hne).symm.trans h
    exact .inl ⟨hne, rfl⟩
  · by_cases ha : reg s ra = 0
    · cases (execExtgcd_error hne ha).symm.trans h
      exact .inr (.inl rfl)
    · cases (execExtgcd_ok hne ha).symm.trans h
      exact .inr (.inr ⟨_, _, rfl⟩)

theorem execFermat_cases {rn : Reg} (h : execFermat rn s = .next t) :
    t = raise .arithPrecondition s ∨ ∃ p ent, t = complete p { s with entropy := ent } := by
  by_cases hn : reg s rn ≤ 3 ∨ reg s rn % 2 = 0
  · cases (execFermat_error hn).symm.trans h
    exact .inl rfl
  · cases (execFermat_ok hn).symm.trans h
    exact .inr ⟨_, _, rfl⟩

theorem execPrimegen_cases {rd rlo rhi : Reg} (h : execPrimegen rd rlo rhi s = .next t) :
    t = raise .arithPrecondition s ∨
    ∃ ent, t = raise .generationExhausted { s with entropy := ent } ∨
      ∃ v, t = complete false (setReg rd v { s with entropy := ent }) := by
  by_cases hr : reg s rlo < 5 ∨ reg s rhi < reg s rlo ∨ (reg s rlo = reg s rhi ∧ reg s rlo % 2 = 0)
  · cases (execPrimegen_error hr).symm.trans h
    exact .inl rfl
  · cases hc : (primegenLoop (reg s rlo) (reg s rhi) s.trials.toNat s.retryLimit.toNat s.entropy).1 with
    | none =>
      cases (execPrimegen_exhausted hr hc).symm.trans h
      exact .inr ⟨_, .inl rfl⟩
    | some c =>
      cases (execPrimegen_found hr hc).symm.trans h
      exact .inr ⟨_, .inr ⟨_, rfl⟩⟩

theorem execEncode_cases {rd : Reg} (h : execEncode rd s = .next t) :
    t = raise .invalidInput s ∨ ∃ v, t = complete false (setReg rd v s) := by
  rcases Nat.lt_or_ge s.build.bmax s.blen.toNat with hl | hl
  · cases (execEncode_tooLong hl).symm.trans h
    exact .inl rfl
  · cases hz : blockHasZero s s.blen.toNat with
    | true =>
      cases (execEncode_zeroByte hz).symm.trans h
      exact .inl rfl
    | false =>
      cases (execEncode_ok hl hz).symm.trans h
      exact .inr ⟨_, rfl⟩

/-- DECODE raises no error (R175). -/
theorem execDecode_cases {rs : Reg} (h : execDecode rs s = .next t) :
    ∃ f len, t = complete false { s with buf := Memory.ofBytes f s.build.bmax, blen := len } := by
  cases h
  exact ⟨_, _, rfl⟩

/-- No command writes a control register, OVR, the build or the model's own fields other than the draws (R32, R208). -/
theorem exec_controls {i : Instr} (h : exec i s = .next t) :
    t.trials = s.trials ∧ t.retryLimit = s.retryLimit ∧ t.cmd = s.cmd ∧ t.ie = s.ie ∧ t.ovr = s.ovr ∧
    t.build = s.build ∧ t.schedule = s.schedule ∧ t.reply = s.reply ∧ t.refusedReads = s.refusedReads := by
  rcases exec_cases h with ⟨_, _, rfl⟩ | ⟨_, _, _, _, _, rfl⟩ <;>
    exact ⟨rfl, rfl, rfl, rfl, rfl, rfl, rfl, rfl, rfl⟩

/-- DECODE alone writes BUF, and it writes all of it (R32, R175). -/
theorem exec_buf {i : Instr} (h : exec i s = .next t) :
    t.buf = s.buf ∨ ∃ f, t.buf = Memory.ofBytes f s.build.bmax := by
  cases i with
  | modmul => rcases execModmul_cases h with rfl | ⟨_, rfl⟩ <;> exact .inl rfl
  | modexp => rcases execModexp_cases h with rfl | ⟨_, rfl⟩ <;> exact .inl rfl
  | extgcd => rcases execExtgcd_cases h with ⟨-, rfl⟩ | rfl | ⟨_, _, rfl⟩ <;> exact .inl rfl
  | fermat => rcases execFermat_cases h with rfl | ⟨_, _, rfl⟩ <;> exact .inl rfl
  | primegen => rcases execPrimegen_cases h with rfl | ⟨_, rfl | ⟨_, rfl⟩⟩ <;> exact .inl rfl
  | encode => rcases execEncode_cases h with rfl | ⟨_, rfl⟩ <;> exact .inl rfl
  | decode =>
    obtain ⟨f, _, rfl⟩ := execDecode_cases h
    exact .inr ⟨f, rfl⟩

end Commands

/-! ### One step, for any predicate that the model's own fields do not matter to -/

/-- What an engine turn, a store of the window, a dropped write and a reset each keep, every step keeps (R70). -/
theorem step_keeps {P : State → Prop}
    (own : ∀ s sched r n, P s → P { s with schedule := sched, reply := r, refusedReads := n })
    (engine : ∀ s t, P s → engineTurn s = .next t → P t)
    (store : ∀ s off v, P s → P (storeTarget v s (targetOf s.build off)))
    (dropped : ∀ s, P s → P { s with ovr := true })
    (reset : ∀ s, P (resetState s)) {s t : State} (hs : P s) (h : step s = .next t) : P t := by
  have hrest (rest : List Event) : P { s with schedule := rest } := own s rest s.reply s.refusedReads hs
  rcases step_cases h with ⟨-, h⟩ | ⟨rest, -, h⟩ | ⟨rest, addr, size, -, rfl⟩ | ⟨rest, addr, size, v, -, rfl⟩ |
    ⟨_, -, rfl⟩
  · exact engine _ _ hs h
  · exact engine _ _ (hrest rest) h
  · obtain ⟨r, n, hread⟩ := busRead_cases addr size { s with schedule := rest }
    rw [hread]
    exact own _ rest r n (hrest rest)
  · rcases busWrite_cases addr size v { s with schedule := rest } with ⟨off, -, -, hwrite⟩ | ⟨r, hwrite⟩
    · rw [hwrite]
      refine own _ _ _ (hostWrite off v { s with schedule := rest }).refusedReads ?_
      rcases hostWrite_cases off v { s with schedule := rest } with ⟨-, -, hw⟩ | ⟨-, hw⟩ <;> rw [hw]
      · exact dropped _ (hrest rest)
      · exact store _ off v (hrest rest)
    · rw [hwrite]
      exact own _ rest r s.refusedReads (hrest rest)
  · exact reset _

theorem writeCtrl_keeps {P : State → Prop} {v : Word} {s : State} (hreset : P (resetState s))
    (hie : ∀ b, P { s with ie := b }) : P (writeCtrl v s) := by
  unfold writeCtrl
  split
  · exact hreset
  · exact hie _

theorem writeTrials_keeps {P : State → Prop} {v : Word} {s : State} (hs : P s)
    (hw : ∀ n, n ≠ 0#16 → P { s with trials := n }) : P (writeTrials v s) := by
  unfold writeTrials
  split
  · exact hs
  · exact hw _ ‹_›

theorem writeRetryLimit_keeps {P : State → Prop} {v : Word} {s : State} (hs : P s)
    (hw : v ≠ 0#32 → P { s with retryLimit := v }) : P (writeRetryLimit v s) := by
  unfold writeRetryLimit
  split
  · exact hs
  · exact hw ‹_›

/-! ### BUF (R31) -/

theorem lt_bmax_of_targetOf_bufWord {b : Build} {off j : Nat} (h : targetOf b off = .bufWord j) : j < b.bmax / 4 := by
  unfold targetOf controlTarget bufTarget regTarget at h
  split_ifs at h
  · split at h <;> cases h
  · cases h
    assumption

theorem setBufByte_bufCanonical {s : State} {j : Nat} (b : Byte) (hs : s.bufCanonical) (hj : j < s.build.bmax) :
    (setBufByte j b s).bufCanonical :=
  ⟨write_wf j b hs.1, write_below hs.2 hj⟩

theorem writeBufWord_bufCanonical {s : State} {j : Nat} (v : Word) (hs : s.bufCanonical) (hj : j < s.build.bmax / 4) :
    (writeBufWord j v s).bufCanonical := by
  have hlt (k : Nat) (hk : k < 4) : 4 * j + k < s.build.bmax := by omega
  exact setBufByte_bufCanonical _ (setBufByte_bufCanonical _ (setBufByte_bufCanonical _ (setBufByte_bufCanonical _ hs
    (hlt 0 (by decide))) (hlt 1 (by decide))) (hlt 2 (by decide))) (hlt 3 (by decide))

theorem ofBytes_bufCanonical {s : State} {f : Nat → Byte} (h : s.buf = Memory.ofBytes f s.build.bmax) :
    s.bufCanonical := by
  unfold State.bufCanonical
  rw [h]
  exact ⟨ofBytes_wf f _, ofBytes_below f _⟩

theorem bufCanonical_congr {s t : State} (hbuf : t.buf = s.buf) (hb : t.build = s.build) (hs : s.bufCanonical) :
    t.bufCanonical := by
  unfold State.bufCanonical
  rwa [hbuf, hb]

theorem exec_bufCanonical {s t : State} {i : Instr} (hs : s.bufCanonical) (h : exec i s = .next t) : t.bufCanonical := by
  rcases exec_buf h with hbuf | ⟨f, hbuf⟩
  · exact bufCanonical_congr hbuf (exec_build h) hs
  · exact ofBytes_bufCanonical (exec_build h ▸ hbuf)

theorem engineTurn_bufCanonical (s t : State) (hs : s.bufCanonical) (h : engineTurn s = .next t) : t.bufCanonical := by
  rcases engineTurn_cases h with ⟨-, rfl⟩ | ⟨-, _, -, rfl⟩ | ⟨-, _, -, hexec⟩
  · exact hs
  · exact hs
  · exact exec_bufCanonical hs hexec

theorem resetState_bufCanonical (s : State) : (resetState s).bufCanonical := ⟨rfl, rfl⟩

theorem storeTarget_bufCanonical (s : State) (off : Nat) (v : Word) (hs : s.bufCanonical) :
    (storeTarget v s (targetOf s.build off)).bufCanonical := by
  cases ht : targetOf s.build off with
  | ctrl => exact writeCtrl_keeps (resetState_bufCanonical s) fun _ => hs
  | trials => exact writeTrials_keeps hs fun _ _ => hs
  | retryLimit => exact writeRetryLimit_keeps hs fun _ => hs
  | bufWord j => exact writeBufWord_bufCanonical v hs (lt_bmax_of_targetOf_bufWord ht)
  | id | param | status | cmd | blen | regWord | reserved => exact hs

/-- Settles O49: DECODE rewrites BUF from nothing, and a window write names bytes of one word below BMAX. -/
theorem stepKeepsBufCanonical : Obligations.StepKeepsBufCanonical := fun _ _ =>
  step_keeps (fun _ _ _ _ hs => hs) engineTurn_bufCanonical storeTarget_bufCanonical (fun _ hs => hs)
    resetState_bufCanonical

/-! ### STATUS and the word in CMD (R26, R200) -/

/-- The decoder gives no EXTGCD with equal destinations (R96). -/
theorem extgcd_destinations_ne {c : Word} {rinv rgcd ra rb : Reg} (h : decodeWord c = .command (.extgcd rinv rgcd ra rb)) :
    rinv ≠ rgcd := by
  unfold decodeWord at h
  simp only at h
  split at h
  · cases h
  · split at h
    any_goals split at h
    all_goals cases h
    assumption

/-- What a pending word decodes to when it can end in this error (R200 to R203, R206). -/
def ErrorCause.canComeFrom : ErrorCause → Decoded → Prop
  | .illegalCommand, d => ∃ why, d = .illegal why
  | .arithPrecondition, d => ∃ i, d = .command i ∧ (∀ rd, i ≠ .encode rd) ∧ ∀ rs, i ≠ .decode rs
  | .invalidInput, d => ∃ rd, d = .command (.encode rd)
  | .generationExhausted, d => ∃ rd rlo rhi, d = .command (.primegen rd rlo rhi)

theorem raise_statusMatchesCommand {s : State} {e : ErrorCause} (h : e.canComeFrom (decodeWord s.cmd)) :
    (raise e s).statusMatchesCommand := by
  cases e <;> simpa [State.statusMatchesCommand, errorCode, ErrorCause.canComeFrom] using h

/-- With no error recorded, STATUS speaks of the command by PRIME alone. -/
theorem statusMatchesCommand_of_ecode_zero {s : State} (he : s.ecode = 0#4)
    (hp : s.prime = true → ∃ rn, decodeWord s.cmd = .command (.fermat rn)) : s.statusMatchesCommand := by
  simpa [State.statusMatchesCommand, he] using hp

theorem complete_statusMatchesCommand {s : State} : (complete false s).statusMatchesCommand :=
  statusMatchesCommand_of_ecode_zero rfl (fun h => by cases h)

theorem exec_statusMatchesCommand {s t : State} {i : Instr} (hd : decodeWord s.cmd = .command i)
    (h : exec i s = .next t) : t.statusMatchesCommand := by
  cases i with
  | modmul =>
    rcases execModmul_cases h with rfl | ⟨_, rfl⟩
    · exact raise_statusMatchesCommand ⟨_, hd, nofun, nofun⟩
    · exact complete_statusMatchesCommand
  | modexp =>
    rcases execModexp_cases h with rfl | ⟨_, rfl⟩
    · exact raise_statusMatchesCommand ⟨_, hd, nofun, nofun⟩
    · exact complete_statusMatchesCommand
  | extgcd =>
    rcases execExtgcd_cases h with ⟨heq, -⟩ | rfl | ⟨_, _, rfl⟩
    · exact absurd heq (extgcd_destinations_ne hd)
    · exact raise_statusMatchesCommand ⟨_, hd, nofun, nofun⟩
    · exact complete_statusMatchesCommand
  | fermat rn =>
    rcases execFermat_cases h with rfl | ⟨_, _, rfl⟩
    · exact raise_statusMatchesCommand ⟨_, hd, nofun, nofun⟩
    · exact statusMatchesCommand_of_ecode_zero rfl fun _ => ⟨rn, hd⟩
  | primegen =>
    rcases execPrimegen_cases h with rfl | ⟨_, rfl | ⟨_, rfl⟩⟩
    · exact raise_statusMatchesCommand ⟨_, hd, nofun, nofun⟩
    · exact raise_statusMatchesCommand ⟨_, _, _, hd⟩
    · exact complete_statusMatchesCommand
  | encode =>
    rcases execEncode_cases h with rfl | ⟨_, rfl⟩
    · exact raise_statusMatchesCommand ⟨_, hd⟩
    · exact complete_statusMatchesCommand
  | decode =>
    obtain ⟨_, _, rfl⟩ := execDecode_cases h
    exact complete_statusMatchesCommand

theorem engineTurn_statusMatchesCommand (s t : State) (hs : s.statusMatchesCommand) (h : engineTurn s = .next t) :
    t.statusMatchesCommand := by
  rcases engineTurn_cases h with ⟨-, rfl⟩ | ⟨-, why, hd, rfl⟩ | ⟨-, _, hd, hexec⟩
  · exact hs
  · exact raise_statusMatchesCommand ⟨why, hd⟩
  · exact exec_statusMatchesCommand hd hexec

theorem resetState_statusMatchesCommand (s : State) : (resetState s).statusMatchesCommand :=
  statusMatchesCommand_of_ecode_zero rfl (fun h => by cases h)

theorem storeTarget_statusMatchesCommand (v : Word) (s : State) (t : Target) (hs : s.statusMatchesCommand) :
    (storeTarget v s t).statusMatchesCommand := by
  cases t with
  | ctrl => exact writeCtrl_keeps (resetState_statusMatchesCommand s) fun _ => hs
  | cmd => exact statusMatchesCommand_of_ecode_zero rfl (fun h => by cases h)
  | trials => exact writeTrials_keeps hs fun _ _ => hs
  | retryLimit => exact writeRetryLimit_keeps hs fun _ => hs
  | id | param | status | blen | bufWord | regWord | reserved => exact hs

/-- Settles O51: a command records an error only if its word can raise it, and the CMD write that replaces the word also
clears PRIME and ECODE (R204). -/
theorem stepKeepsStatusMatchingTheCommand : Obligations.StepKeepsStatusMatchingTheCommand := fun _ _ =>
  step_keeps (fun _ _ _ _ hs => hs) engineTurn_statusMatchesCommand
    (fun s _ v => storeTarget_statusMatchesCommand v s _) (fun _ hs => hs) resetState_statusMatchesCommand

/-! ### The limits and the flags (R27, R28, R32) -/

theorem engineTurn_limitsNonzero (s t : State) (hs : s.limitsNonzero) (h : engineTurn s = .next t) : t.limitsNonzero := by
  rcases engineTurn_cases h with ⟨-, rfl⟩ | ⟨-, _, -, rfl⟩ | ⟨-, _, -, hexec⟩
  · exact hs
  · exact hs
  · obtain ⟨htrials, hretry, -⟩ := exec_controls hexec
    unfold State.limitsNonzero
    rwa [htrials, hretry]

theorem resetState_limitsNonzero (s : State) : (resetState s).limitsNonzero :=
  ⟨by simp [Config.trialsReset], by simp [Config.retryLimitReset]⟩

theorem storeTarget_limitsNonzero (v : Word) (s : State) (t : Target) (hs : s.limitsNonzero) :
    (storeTarget v s t).limitsNonzero := by
  cases t with
  | ctrl => exact writeCtrl_keeps (resetState_limitsNonzero s) fun _ => hs
  | trials => exact writeTrials_keeps hs fun _ hn => ⟨hn, hs.2⟩
  | retryLimit => exact writeRetryLimit_keeps hs fun hv => ⟨hs.1, hv⟩
  | id | param | status | cmd | blen | bufWord | regWord | reserved => exact hs

theorem raise_flagsConsistent (e : ErrorCause) (s : State) : (raise e s).flagsConsistent := by
  cases e <;> simp [State.flagsConsistent, errorCode]

theorem complete_flagsConsistent (p : Bool) (s : State) : (complete p s).flagsConsistent := by
  simp [State.flagsConsistent]

theorem startCommand_flagsConsistent (c : Word) (s : State) : (startCommand c s).flagsConsistent := by
  simp [State.flagsConsistent]

theorem resetState_flagsConsistent (s : State) : (resetState s).flagsConsistent := by
  simp [State.flagsConsistent]

/-- Acknowledging clears DONE, which a pending command has clear already (R26). -/
theorem writeOneToClear_flagsConsistent {s : State} (v : Word) (hs : s.flagsConsistent) :
    (writeOneToClear v s).flagsConsistent := by
  obtain ⟨hbusy, herr, hprime, hcode⟩ := hs
  refine ⟨fun hb => ?_, herr, hprime, hcode⟩
  obtain ⟨hdone, hrest⟩ := hbusy hb
  exact ⟨by simp [hdone], hrest⟩

theorem engineTurn_flagsConsistent (s t : State) (hs : s.flagsConsistent) (h : engineTurn s = .next t) :
    t.flagsConsistent := by
  rcases engineTurn_cases h with ⟨-, rfl⟩ | ⟨-, _, -, rfl⟩ | ⟨-, _, -, hexec⟩
  · exact hs
  · exact raise_flagsConsistent _ _
  · rcases exec_cases hexec with ⟨_, _, rfl⟩ | ⟨_, _, _, _, _, rfl⟩
    · exact raise_flagsConsistent _ _
    · exact complete_flagsConsistent _ _

theorem storeTarget_flagsConsistent (v : Word) (s : State) (t : Target) (hs : s.flagsConsistent) :
    (storeTarget v s t).flagsConsistent := by
  cases t with
  | ctrl => exact writeCtrl_keeps (resetState_flagsConsistent s) fun _ => hs
  | status => exact writeOneToClear_flagsConsistent v hs
  | cmd => exact startCommand_flagsConsistent v s
  | trials => exact writeTrials_keeps hs fun _ _ => hs
  | retryLimit => exact writeRetryLimit_keeps hs fun _ => hs
  | id | param | blen | bufWord | regWord | reserved => exact hs

theorem step_limitsNonzero {s t : State} (hs : s.limitsNonzero) (h : step s = .next t) : t.limitsNonzero :=
  step_keeps (fun _ _ _ _ hs => hs) engineTurn_limitsNonzero (fun s _ v => storeTarget_limitsNonzero v s _)
    (fun _ hs => hs) resetState_limitsNonzero hs h

theorem step_flagsConsistent {s t : State} (hs : s.flagsConsistent) (h : step s = .next t) : t.flagsConsistent :=
  step_keeps (fun _ _ _ _ hs => hs) engineTurn_flagsConsistent (fun s _ v => storeTarget_flagsConsistent v s _)
    (fun _ hs => hs) resetState_flagsConsistent hs h

/-- Settles O50: each half is kept by itself. -/
theorem stepKeepsLimitsAndFlags : Obligations.StepKeepsLimitsAndFlags :=
  fun _ _ hl hf h => ⟨step_limitsNonzero hl h, step_flagsConsistent hf h⟩

end Sys2Proof.Machine
end

section
/-! SUPPORT. The frames of the commands (R32, R205, R208). -/

namespace Sys2Proof.Machine

/-- A command with one destination ends in an error or writes that register alone, and only PRIMEGEN draws. -/
theorem exec_oneDestination_cases {i : Instr} {rd : Reg} {s t : State}
    (hi : (∃ ra rb rm, i = .modmul rd ra rb rm) ∨ (∃ rbase rexp rmod, i = .modexp rd rbase rexp rmod) ∨
      (∃ rlo rhi, i = .primegen rd rlo rhi) ∨ i = .encode rd)
    (h : exec i s = .next t) :
    ∃ ent, ((∀ rlo rhi, i ≠ .primegen rd rlo rhi) → ent = s.entropy) ∧
      ((∃ e, t = raise e { s with entropy := ent }) ∨
        ∃ v, t = complete false (setReg rd v { s with entropy := ent })) := by
  rcases hi with ⟨ra, rb, rm, rfl⟩ | ⟨rbase, rexp, rmod, rfl⟩ | ⟨rlo, rhi, rfl⟩ | rfl
  · exact ⟨s.entropy, fun _ => rfl, (execModmul_cases h).imp_left fun ht => ⟨_, ht⟩⟩
  · exact ⟨s.entropy, fun _ => rfl, (execModexp_cases h).imp_left fun ht => ⟨_, ht⟩⟩
  · rcases execPrimegen_cases h with ht | ⟨ent, ht⟩
    · exact ⟨s.entropy, fun _ => rfl, .inl ⟨_, ht⟩⟩
    · exact ⟨ent, fun hne => absurd rfl (hne rlo rhi), ht.imp_left fun ht => ⟨_, ht⟩⟩
  · exact ⟨s.entropy, fun _ => rfl, (execEncode_cases h).imp_left fun ht => ⟨_, ht⟩⟩

/-- Settles O41: an error writes no register, and a completion writes the destination. -/
theorem oneDestinationCommandsFrame : Obligations.OneDestinationCommandsFrame := by
  intro i rd s t hi h
  obtain ⟨htrials, hretry, hcmd, hie, hovr, hbuild, hsched, hreply, hreads⟩ := exec_controls h
  obtain ⟨ent, hent, ⟨e, rfl⟩ | ⟨v, rfl⟩⟩ := exec_oneDestination_cases hi h
  · exact ⟨fun _ _ => rfl, fun _ => rfl, rfl, htrials, hretry, hcmd, hie, hovr, hbuild, hsched, hreply, hreads, hent⟩
  · refine ⟨fun r hr => ?_, fun _ => rfl, rfl, htrials, hretry, hcmd, hie, hovr, hbuild, hsched, hreply, hreads, hent⟩
    exact (reg_setReg rd r v _).trans (if_neg hr)

/-- Settles O42: an error writes no register, and a completion writes the two destinations. -/
theorem extgcdFrame : Obligations.ExtgcdFrame := by
  intro rinv rgcd ra rb s t h
  obtain ⟨htrials, hretry, hcmd, hie, hovr, hbuild, hsched, hreply, hreads⟩ := exec_controls h
  have hregs : (∀ r : Reg, r ≠ rinv → r ≠ rgcd → reg t r = reg s r) ∧ t.buf = s.buf ∧ t.blen = s.blen ∧
      t.entropy = s.entropy := by
    rcases execExtgcd_cases h with ⟨-, rfl⟩ | rfl | ⟨inv, gcd, rfl⟩
    · exact ⟨fun _ _ _ => rfl, rfl, rfl, rfl⟩
    · exact ⟨fun _ _ _ => rfl, rfl, rfl, rfl⟩
    · refine ⟨fun r hinv hgcd => ?_, rfl, rfl, rfl⟩
      calc reg (setReg rgcd gcd (setReg rinv inv s)) r
          = reg (setReg rinv inv s) r := (reg_setReg ..).trans (if_neg hgcd)
        _ = reg s r := (reg_setReg ..).trans (if_neg hinv)
  obtain ⟨hreg, hbuf, hblen, hent⟩ := hregs
  exact ⟨hreg, bufByte_congr hbuf, hblen, htrials, hretry, hcmd, hie, hovr, hbuild, hsched, hreply, hreads, hent⟩

/-- Settles O43: a verdict is a flag, and the draws are the model's own. -/
theorem fermatFrame : Obligations.FermatFrame := by
  intro rn s t h
  have hcontrols := exec_controls h
  rcases execFermat_cases h with rfl | ⟨p, ent, rfl⟩ <;> exact ⟨fun _ => rfl, fun _ => rfl, rfl, hcontrols⟩

/-- Settles O44: neither BUF that DECODE leaves nor a canonical one before it names a byte at or above BMAX. -/
theorem decodeFrame : Obligations.DecodeFrame := by
  intro rs s t h
  obtain ⟨htrials, hretry, hcmd, hie, hovr, hbuild, hsched, hreply, hreads⟩ := exec_controls h
  obtain ⟨f, len, rfl⟩ := execDecode_cases h
  refine ⟨fun _ => rfl, fun hs j hj => ?_, htrials, hretry, hcmd, hie, hovr, hbuild, hsched, hreply, hreads, rfl⟩
  calc Memory.read (Memory.ofBytes f s.build.bmax) j
      = 0 := read_of_below (ofBytes_below f _) hj
    _ = Memory.read s.buf j := (read_of_below hs.2 hj).symm

end Sys2Proof.Machine
end

section
/-! SUPPORT. A pending command's operands under host accesses (R36, R67, R69, R250, R252). -/

namespace Sys2Proof.Machine

/-- The flags of STATUS as the fields of a word (R26). -/
theorem statusWord_eq_append (s : State) :
    statusWord s = 0#20 ++ s.ecode ++ 0#3 ++ BitVec.ofBool s.ovr ++ BitVec.ofBool s.prime ++ BitVec.ofBool s.err ++
      BitVec.ofBool s.done ++ BitVec.ofBool s.busy := by
  have hbit (b : Bool) (i : Nat) : flagBit b i = b.toNat * 2 ^ i := by cases b <;> simp [flagBit]
  have hcode := s.ecode.isLt
  have hbusy := s.busy.toNat_lt
  have hdone := s.done.toNat_lt
  have herr := s.err.toNat_lt
  have hprime := s.prime.toNat_lt
  have hovr := s.ovr.toNat_lt
  apply BitVec.eq_of_toNat_eq
  simp only [statusWord, hbit, BitVec.toNat_append, BitVec.toNat_ofNat, BitVec.toNat_ofBool]
  rw [← Nat.shiftLeft_add_eq_or_of_lt (by omega), ← Nat.shiftLeft_add_eq_or_of_lt (by omega),
    ← Nat.shiftLeft_add_eq_or_of_lt (by omega), ← Nat.shiftLeft_add_eq_or_of_lt (by omega),
    ← Nat.shiftLeft_add_eq_or_of_lt (by omega), ← Nat.shiftLeft_add_eq_or_of_lt (by omega),
    ← Nat.shiftLeft_add_eq_or_of_lt (by omega)]
  simp only [Nat.shiftLeft_eq]
  omega

theorem statusWord_bit_zero (s : State) : (statusWord s).getLsbD 0 = s.busy := by
  rw [statusWord_eq_append, BitVec.getLsbD_append]
  simp

theorem off_of_targetOf_ctrl {b : Build} {off : Nat} (h : targetOf b off = .ctrl) : off = 0x008 := by
  unfold targetOf controlTarget bufTarget regTarget at h
  split_ifs at h
  split at h <;> cases h
  rfl

theorem writeCtrl_reset {v : Word} (s : State) (h : v.getLsbD 31 = true) : writeCtrl v s = resetState s := if_pos h

theorem writeCtrl_enable {v : Word} (s : State) (h : v.getLsbD 31 = false) :
    writeCtrl v s = { s with ie := v.getLsbD 0 } := if_neg (by rw [h]; decide)

/-- A write that the busy lock lets through, short of a soft reset, changes IE, DONE and OVR at most (R250). -/
theorem storeTarget_of_not_busyLocked {v : Word} {t : Target} (s : State) (hl : busyLocked t = false)
    (hv : t = .ctrl → v.getLsbD 31 = false) :
    ∃ ie done ovr, storeTarget v s t = { s with ie := ie, done := done, ovr := ovr } := by
  cases t with
  | ctrl => exact ⟨v.getLsbD 0, s.done, s.ovr, writeCtrl_enable s (hv rfl)⟩
  | status => exact ⟨s.ie, _, _, rfl⟩
  | id | param | reserved => exact ⟨s.ie, s.done, s.ovr, rfl⟩
  | cmd | trials | retryLimit | blen | bufWord | regWord => cases hl

/-- A window write while BUSY = 1, short of a soft reset, changes IE, DONE and OVR at most (R250). -/
theorem hostWrite_of_busy {off : Nat} {v : Word} {s : State} (hb : s.busy = true)
    (hv : off = 0x008 → v.getLsbD 31 = false) :
    ∃ ie done ovr, hostWrite off v s = { s with ie := ie, done := done, ovr := ovr } := by
  rcases hostWrite_cases off v s with ⟨-, -, hw⟩ | ⟨hl, hw⟩
  · exact ⟨s.ie, s.done, true, hw⟩
  · rw [hw]
    exact storeTarget_of_not_busyLocked s (hl.resolve_left (by simp [hb])) fun ht => hv (off_of_targetOf_ctrl ht)

/-- A host access while BUSY = 1, short of a soft reset, takes itself off the schedule and changes IE, DONE, OVR and the
model's own fields less the draws at most. -/
theorem step_hostAccess_of_busy {s : State} {e : Event} {rest : List Event} (hb : s.busy = true)
    (hs : s.schedule = e :: rest) (ha : e.isHostAccess = true) (hr : e.isSoftReset s.build = false) :
    ∃ ie done ovr r n, step s =
      .next { s with ie := ie, done := done, ovr := ovr, schedule := rest, reply := r, refusedReads := n } := by
  rw [step_cons hs]
  cases e with
  | read addr size =>
    obtain ⟨r, n, hread⟩ := busRead_cases addr size { s with schedule := rest }
    exact ⟨s.ie, s.done, s.ovr, r, n, congrArg _ hread⟩
  | write addr size v =>
    rcases busWrite_cases addr size v { s with schedule := rest } with ⟨off, hoff, hserved, hw⟩ | ⟨r, hw⟩
    · have hv : off = 0x008 → v.getLsbD 31 = false := by
        rintro rfl
        simpa [Event.isSoftReset, show windowOffset s.build addr = some 0x008 from hoff, hserved] using hr
      obtain ⟨ie, done, ovr, hstore⟩ := hostWrite_of_busy (s := { s with schedule := rest }) hb hv
      rw [hstore] at hw
      exact ⟨ie, done, ovr, .written, s.refusedReads, congrArg _ hw⟩
    · exact ⟨s.ie, s.done, s.ovr, r, s.refusedReads, congrArg _ hw⟩
  | engine | hardReset => cases ha

/-- Any number of such accesses does no more than one of them. -/
theorem run_hostAccesses_of_busy {k : Nat} {s t : State} (hb : s.busy = true) (hk : k ≤ s.schedule.length)
    (he : ∀ e ∈ s.schedule.take k, e.isHostAccess = true ∧ e.isSoftReset s.build = false)
    (h : Host.Core.run Sys2Proof.core k s = .next t) :
    ∃ ie done ovr sched r n,
      t = { s with ie := ie, done := done, ovr := ovr, schedule := sched, reply := r, refusedReads := n } := by
  induction k generalizing s with
  | zero =>
    cases h
    exact ⟨t.ie, t.done, t.ovr, t.schedule, t.reply, t.refusedReads, rfl⟩
  | succ k ih =>
    cases hs : s.schedule with
    | nil => simp [hs] at hk
    | cons e rest =>
      rw [hs] at hk he
      obtain ⟨ha, hr⟩ := he e List.mem_cons_self
      obtain ⟨_, _, _, _, _, hstep⟩ := step_hostAccess_of_busy hb hs ha hr
      rw [run_succ k hstep] at h
      have hrest := ih (h := h)
      exact hrest hb (Nat.le_of_succ_le_succ hk) fun e' h' => he e' (List.mem_cons_of_mem _ h')

/-- Settles O25: STATUS reads BUSY in bit 0, and no other field of the claim can change. -/
theorem operandsHoldWhileACommandIsPending : Obligations.OperandsHoldWhileACommandIsPending := by
  intro k s t hb hk he h
  obtain ⟨_, _, _, _, _, _, rfl⟩ := run_hostAccesses_of_busy hb hk he h
  exact ⟨hb, (statusWord_bit_zero _).trans hb, rfl, rfl, rfl, rfl, rfl, rfl, rfl, rfl, rfl, rfl, rfl⟩

end Sys2Proof.Machine
end

section
/-! SUPPORT. The reset state, the engine's step on a decoded command, and what each control register of the window reads and
stores (R23 to R30, R34, R204, R241, R250). -/

namespace Sys2Proof.Machine

/-! ### Reset -/

theorem resetState_resetOf (b : Build) : resetState (State.resetOf b) = State.resetOf b := rfl

/-- A reset gives every piece of the spec's state its reset value (R241, R242). -/
theorem sameCore_resetState (s : State) : (State.resetOf s.build).sameCore (resetState s) :=
  ⟨rfl, rfl, rfl, rfl, rfl, rfl, rfl, rfl, rfl, rfl, rfl, rfl, rfl, rfl⟩

theorem resetState_inv (s : State) : (resetState s).Inv :=
  ⟨resetState_regsInRange s, resetState_bufCanonical s, resetState_limitsNonzero s, resetState_flagsConsistent s⟩

/-- Settles O2: the reset state is what a reset leaves of itself, and a reset leaves a legal state. -/
theorem resetStateIsLegal : Obligations.ResetStateIsLegal := by
  refine ⟨fun b => ?_, rfl⟩
  rw [← resetState_resetOf b]
  exact ⟨resetState_inv _, resetState_statusMatchesCommand _⟩

/-! ### The engine's step -/

theorem step_engine {s : State} {rest : List Event} (h : s.schedule = .engine :: rest) :
    step s = engineTurn { s with schedule := rest } := step_cons h

theorem decodeWord_of_decodeTableWord {nbits w : Nat} {i : Instr} (h : decodeTableWord nbits w = some i) :
    decodeWord (tableWord nbits w) = .command i := by
  unfold decodeTableWord at h
  split at h
  · cases h
    assumption
  · cases h

/-- The word that the host places is the whole of it (R90). -/
theorem tableWord_32 (w : Nat) : tableWord 32 w = BitVec.ofNat 32 w := by
  apply BitVec.eq_of_toNat_eq
  simp [tableWord]

/-- Settles O10: a pending command's word is decoded in the engine's turn, wherever that turn comes from. -/
theorem stepRunsTheDecodedCommand : Obligations.StepRunsTheDecodedCommand := by
  refine ⟨fun s i hb hd => ⟨fun hs => ?_, fun rest hs => ?_⟩, fun s w i h => ?_⟩
  · rw [step_nil hs, engineTurn_command hb hd]
  · rw [step_engine hs]
    exact engineTurn_command hb hd
  · rw [← tableWord_32]
    exact (step_engine (s := s.withFetchWord 32 w) rfl).trans
      (engineTurn_command rfl (decodeWord_of_decodeTableWord h))

/-! ### ID, PARAM and CTRL (R23 to R25) -/

theorem paramWord_eq_append (b : Build) : paramWord b = BitVec.ofNat 16 b.bmax ++ 16#8 ++ BitVec.ofNat 8 b.wwords := by
  have hw := wwords_range b
  have hbmax := bmax_eq b
  apply BitVec.eq_of_toNat_eq
  simp only [paramWord, Config.nreg, BitVec.toNat_append, BitVec.toNat_ofNat]
  rw [Nat.mod_eq_of_lt (a := b.bmax) (by omega), Nat.mod_eq_of_lt (a := b.wwords) (by omega)]
  rw [← Nat.shiftLeft_add_eq_or_of_lt (by omega), ← Nat.shiftLeft_add_eq_or_of_lt (by omega)]
  simp only [Nat.shiftLeft_eq]
  omega

/-- Settles O14: neither offset is busy-locked, and neither stores. -/
theorem idAndParamAreConstants : Obligations.IdAndParamAreConstants := fun s =>
  ⟨rfl, paramWord_eq_append s.build, fun _ =>
    ⟨hostWrite_unlocked (targetOf_id _) rfl, hostWrite_unlocked (targetOf_param _) rfl⟩⟩

theorem ctrlWord_getLsbD (s : State) (i : Nat) : (ctrlWord s).getLsbD i = (decide (i = 0) && s.ie) := by
  cases hie : s.ie <;> simp [ctrlWord, flagBit, hie]

theorem hostWrite_ctrl (v : Word) (s : State) : hostWrite 0x008 v s = writeCtrl v s :=
  hostWrite_unlocked (targetOf_ctrl _) rfl

/-- Settles O15: bit 31 of the word written picks between a reset and an update of IE. -/
theorem ctrlReadsAndWrites : Obligations.CtrlReadsAndWrites := by
  intro s v
  rw [hostWrite_ctrl]
  refine ⟨fun i _ => ctrlWord_getLsbD s i, writeCtrl_enable s, fun hv => ?_, rfl, fun _ => rfl⟩
  rw [writeCtrl_reset s hv]
  exact sameCore_resetState s

/-! ### STATUS (R26) -/

theorem hostWrite_status (v : Word) (s : State) : hostWrite 0x00C v s = writeOneToClear v s :=
  hostWrite_unlocked (targetOf_status _) rfl

/-- Settles O16: STATUS is its fields side by side, and a write is the one acknowledgement of R26. -/
theorem statusReadsAndWrites : Obligations.StatusReadsAndWrites :=
  fun s v => ⟨statusWord_eq_append s, hostWrite_status v s⟩

/-! ### The busy-locked control registers (R27 to R30, R250) -/

/-- Settles O17: each is locked while BUSY = 1, and a write of 0 is one the register ignores. -/
theorem trialsAndRetryLimitReadAndWrite : Obligations.TrialsAndRetryLimitReadAndWrite := by
  intro s v
  have hlow : v.extractLsb' 0 16 = v.setWidth 16 := (BitVec.setWidth_eq_extractLsb' (by decide)).symm
  rw [hlow]
  refine ⟨?_, rfl, hostWrite_idle (targetOf_trials _), hostWrite_idle (targetOf_retryLimit _), fun hb => ?_,
    fun _ => ⟨rfl, rfl⟩⟩
  · exact BitVec.setWidth_eq_append (show 16 ≤ 32 by decide)
  · exact ⟨hostWrite_locked (targetOf_trials _) rfl hb, hostWrite_locked (targetOf_retryLimit _) rfl hb⟩

/-- Settles O18: an idle core starts the command, a busy one drops the write. -/
theorem commandStart : Obligations.CommandStart := by
  intro s c
  refine ⟨fun hb => ?_, hostWrite_locked (targetOf_cmd _) rfl, rfl⟩
  rw [hostWrite_idle (targetOf_cmd _) hb]
  exact ⟨rfl, rfl, Bool.and_false _⟩

/-- Settles O19: BLEN takes any word while idle, and is locked while BUSY = 1. -/
theorem blenStoresAnyWord : Obligations.BlenStoresAnyWord :=
  fun _ _ => ⟨rfl, hostWrite_idle (targetOf_blen _), hostWrite_locked (targetOf_blen _) rfl⟩

/-! ### Reserved bits and offsets (R34) -/

theorem statusWord_reserved_bit (s : State) {i : Nat} (h : (5 ≤ i ∧ i ≤ 7) ∨ (12 ≤ i ∧ i < 32)) :
    (statusWord s).getLsbD i = false := by
  rw [statusWord_eq_append]
  rcases h with ⟨h5, h7⟩ | ⟨h12, h32⟩ <;> interval_cases i <;> simp only [BitVec.getLsbD_append] <;> simp

/-- CTRL looks at bits 31 and 0 of the word written (R25). -/
theorem writeCtrl_congr {v w : Word} (s : State) (h0 : v.getLsbD 0 = w.getLsbD 0) (h31 : v.getLsbD 31 = w.getLsbD 31) :
    writeCtrl v s = writeCtrl w s := by
  rw [writeCtrl, writeCtrl, h0, h31]

/-- STATUS looks at bits 1 and 4 of the word written (R26). -/
theorem writeOneToClear_congr {v w : Word} (s : State) (h1 : v.getLsbD 1 = w.getLsbD 1)
    (h4 : v.getLsbD 4 = w.getLsbD 4) : writeOneToClear v s = writeOneToClear w s := by
  rw [writeOneToClear, writeOneToClear, h1, h4]

/-- TRIALS looks at the low half of the word written (R27). -/
theorem hostWrite_trials_congr {v w : Word} (s : State) (h : v.setWidth 16 = w.setWidth 16) :
    hostWrite 0x014 v s = hostWrite 0x014 w s := by
  have hw : writeTrials v s = writeTrials w s := by rw [writeTrials, writeTrials, h]
  cases hb : s.busy with
  | false => rw [hostWrite_idle (targetOf_trials _) hb, hostWrite_idle (targetOf_trials _) hb]; exact hw
  | true => rw [hostWrite_locked (targetOf_trials _) rfl hb, hostWrite_locked (targetOf_trials _) rfl hb]

/-- Settles O21: each register reads only its own bits, and a write looks at those it stores. -/
theorem reservedBitsAndOffsetsReadZero : Obligations.ReservedBitsAndOffsetsReadZero := by
  intro s
  refine ⟨fun i h1 _ => ?_, fun i h => statusWord_reserved_bit s h, fun i h16 _ => ?_, fun v w h0 h31 => ?_,
    fun v w h1 h4 => ?_, fun v w h => ?_, fun off _ h => ⟨?_, fun v => ?_⟩⟩
  · exact (ctrlWord_getLsbD s i).trans (by simp [Nat.ne_of_gt h1])
  · have hget : (s.trials.setWidth 32).getLsbD i = false := by simp [BitVec.getLsbD_of_ge _ _ h16]
    exact hget
  · rw [hostWrite_ctrl, hostWrite_ctrl, writeCtrl_congr s h0 h31]
  · rw [hostWrite_status, hostWrite_status, writeOneToClear_congr s h1 h4]
  · simp only [← BitVec.setWidth_eq_extractLsb' (show 16 ≤ 32 by decide)] at h
    exact hostWrite_trials_congr s h
  · rw [hostRead, targetOf_reserved _ h]
    rfl
  · exact hostWrite_unlocked (targetOf_reserved _ h) rfl

end Sys2Proof.Machine
end

section
/-! SUPPORT. The words of the operand registers and of BUF through the host window, how the two layouts agree after ENCODE, and
which accesses the bus serves (R60, R63 to R66, R68, R171). -/

namespace Sys2Proof.Machine

/-! ### What an offset reads -/

theorem hostRead_of_target {off : Nat} {s : State} {t : Target} (ht : targetOf s.build off = t) :
    hostRead off s = readTarget s t := congrArg (readTarget s) ht

/-- A reserved offset reads 0 and ignores a write, busy or not (R34). -/
theorem hostAccess_of_reserved {off : Nat} {s : State} (ht : targetOf s.build off = .reserved) (v : Word) :
    hostRead off s = 0#32 ∧ hostWrite off v s = s :=
  ⟨hostRead_of_target ht, hostWrite_unlocked ht rfl⟩

theorem targetOf_regWord {b : Build} {k : Nat} (i : Reg) (hk : k < b.wwords) :
    targetOf b (0x1000 + 0x100 * i.val + 4 * k) = .regWord i k :=
  (targetOf_reg b i (hk.trans_le (wwords_range b).2)).trans (if_pos hk)

theorem bmax_div_four (b : Build) : b.bmax / 4 = b.wwords := by
  rw [bmax_eq, Nat.mul_div_cancel_left _ (by decide)]

theorem targetOf_bufWord {b : Build} {j : Nat} (hj : j < b.bmax / 4) : targetOf b (0x800 + 4 * j) = .bufWord j := by
  have hle := (wwords_range b).2
  rw [bmax_div_four] at hj
  rw [targetOf_buf b (hj.trans_le hle), bufTarget, if_pos (by rwa [bmax_div_four])]

/-! ### Register words (R64) -/

theorem wordSlice_eq_div_mod (v k : Nat) : wordSlice v k = v / 2 ^ (32 * k) % 2 ^ 32 := by
  rw [wordSlice, Nat.shiftRight_eq_div_pow]

theorem readRegWord_toNat (s : State) (i : Reg) (k : Nat) : (readRegWord s i k).toNat = wordSlice (reg s i) k :=
  Nat.mod_mod _ _

/-- Settles O22: the offset names word k of the register below WWORDS and is reserved from there on. -/
theorem registerWindowReadsAndWritesOneWord : Obligations.RegisterWindowReadsAndWritesOneWord := by
  intro s i k v hk off
  simp only [← wordSlice_eq_div_mod]
  refine ⟨fun hw => ?_, fun hw => ?_, fun hw hb => ?_⟩
  · rw [hostRead_of_target (targetOf_regWord i hw)]
    exact readRegWord_toNat s i k
  · exact hostAccess_of_reserved ((targetOf_reg _ i hk).trans (if_neg (Nat.not_lt.2 hw))) v
  · have hwrite : hostWrite off v s = setReg i (replaceWord (reg s i) k v) s :=
      hostWrite_idle (targetOf_regWord i hw) hb
    rw [hwrite]
    refine ⟨rfl, fun k' => ?_, fun i' hne => (reg_setReg ..).trans (if_neg hne)⟩
    rw [reg_setReg, if_pos rfl, wordSlice_replaceWord]

/-! ### BUF words (R65) -/

theorem writeBufWord_eq (j : Nat) (v : Word) (s : State) :
    writeBufWord j v s = { s with buf := (writeBufWord j v s).buf } := rfl

theorem bufByte_setBufByte_same {s : State} (a : Nat) (b : Byte) (hs : Memory.wf s.buf = true) :
    bufByte (setBufByte a b s) a = b := read_write_same a b hs

theorem bufByte_setBufByte_other {s : State} {a c : Nat} (b : Byte) (h : c ≠ a) :
    bufByte (setBufByte a b s) c = bufByte s c := read_write_other h

/-- A write to word `j` of a canonical BUF stores its four bytes, the lowest-numbered from bits [7:0] (R65). -/
theorem bufByte_writeBufWord {s : State} (j : Nat) (v : Word) (hs : Memory.wf s.buf = true) :
    bufByte (writeBufWord j v s) (4 * j) = v.extractLsb' 0 8 ∧
    bufByte (writeBufWord j v s) (4 * j + 1) = v.extractLsb' 8 8 ∧
    bufByte (writeBufWord j v s) (4 * j + 2) = v.extractLsb' 16 8 ∧
    bufByte (writeBufWord j v s) (4 * j + 3) = v.extractLsb' 24 8 := by
  have h1 := write_wf (4 * j) (v.extractLsb' 0 8) hs
  have h2 := write_wf (4 * j + 1) (v.extractLsb' 8 8) h1
  have h3 := write_wf (4 * j + 2) (v.extractLsb' 16 8) h2
  unfold writeBufWord
  refine ⟨?_, ?_, ?_, bufByte_setBufByte_same _ _ h3⟩
  · rw [bufByte_setBufByte_other _ (by omega), bufByte_setBufByte_other _ (by omega),
      bufByte_setBufByte_other _ (by omega), bufByte_setBufByte_same _ _ hs]
  · rw [bufByte_setBufByte_other _ (by omega), bufByte_setBufByte_other _ (by omega), bufByte_setBufByte_same _ _ h1]
  · rw [bufByte_setBufByte_other _ (by omega), bufByte_setBufByte_same _ _ h2]

theorem bufByte_writeBufWord_other {s : State} {j a : Nat} (v : Word) (h : a < 4 * j ∨ 4 * j + 4 ≤ a) :
    bufByte (writeBufWord j v s) a = bufByte s a := by
  unfold writeBufWord
  rw [bufByte_setBufByte_other _ (by omega), bufByte_setBufByte_other _ (by omega),
    bufByte_setBufByte_other _ (by omega), bufByte_setBufByte_other _ (by omega)]

/-- Settles O23: the offset names word j of BUF below BMAX / 4 and is reserved from there on. -/
theorem bufWindowReadsAndWritesFourBytes : Obligations.BufWindowReadsAndWritesFourBytes := by
  intro s j v hj off
  refine ⟨fun hw => hostRead_of_target (targetOf_bufWord hw), fun hw => ?_, fun hw hb ⟨hwf, _⟩ => ?_⟩
  · exact hostAccess_of_reserved ((targetOf_buf _ hj).trans (if_neg (Nat.not_lt.2 hw))) v
  · have hwrite : hostWrite off v s = writeBufWord j v s := hostWrite_idle (targetOf_bufWord hw) hb
    obtain ⟨h0, h1, h2, h3⟩ := bufByte_writeBufWord j v hwf
    rw [hwrite]
    exact ⟨writeBufWord_eq j v s, h0, h1, h2, h3, fun a => bufByte_writeBufWord_other v⟩

/-! ### The two layouts agree (R66, R171) -/

theorem byteOf_toNat (v i : Nat) : (byteOf v i).toNat = v / 256 ^ i % 256 := by
  rw [byteOf, BitVec.toNat_ofNat, Nat.shiftRight_eq_div_pow, Nat.pow_mul]

/-- A digit at index `len` leaves the lower ones alone. -/
theorem byteOf_add_mul_pow {i len : Nat} (v d : Nat) (hi : i < len) : byteOf (v + d * 256 ^ len) i = byteOf v i := by
  have hp : 0 < 256 ^ i := Nat.pow_pos (by decide)
  obtain ⟨k, rfl⟩ := Nat.exists_eq_add_of_lt hi
  apply BitVec.eq_of_toNat_eq
  rw [byteOf_toNat, byteOf_toNat, show d * 256 ^ (i + k + 1) = 256 ^ i * (256 * (d * 256 ^ k)) by ring,
    Nat.add_mul_div_left _ _ hp, Nat.add_mul_mod_self_left]

/-- A digit at index `len`, above a value of `len` digits, is the value's byte there. -/
theorem byteOf_add_mul_pow_self {len v : Nat} (d : Byte) (hv : v < 256 ^ len) :
    byteOf (v + d.toNat * 256 ^ len) len = d := by
  apply BitVec.eq_of_toNat_eq
  rw [byteOf_toNat, Nat.add_mul_div_right _ _ (Nat.pow_pos (by decide)), Nat.div_eq_of_lt hv, Nat.zero_add,
    Nat.mod_eq_of_lt d.isLt]

/-- Each byte of the block is one digit in base 256 of the integer (R171). -/
theorem byteOf_encodeBlock (s : State) {len i : Nat} (hi : i < len) : byteOf (encodeBlock s len) i = bufByte s i := by
  induction len with
  | zero => cases hi
  | succ len ih =>
    rcases Nat.lt_succ_iff_lt_or_eq.1 hi with h | rfl
    · exact (byteOf_add_mul_pow _ _ h).trans (ih h)
    · exact byteOf_add_mul_pow_self _ (encodeBlock_lt s i)

/-- A word of a value is its four bytes, the least significant one lowest (R8, R64). -/
theorem ofNat_wordSlice_eq_bytes (v k : Nat) :
    BitVec.ofNat 32 (wordSlice v k) =
      byteOf v (4 * k + 3) ++ byteOf v (4 * k + 2) ++ byteOf v (4 * k + 1) ++ byteOf v (4 * k) := by
  apply BitVec.eq_of_getLsbD_eq
  intro i hi
  simp only [BitVec.getLsbD_append, byteOf, BitVec.getLsbD_ofNat, testBit_wordSlice, Nat.testBit_shiftRight]
  split_ifs with h0 h1 h2
  · rw [show 8 * (4 * k) + i = 32 * k + i by omega]
    simp [hi, h0]
  · rw [show 8 * (4 * k + 1) + (i - 8) = 32 * k + i by omega]
    simp [hi, h1]
  · rw [show 8 * (4 * k + 2) + (i - 8 - 8) = 32 * k + i by omega]
    simp [hi, h2]
  · rw [show 8 * (4 * k + 3) + (i - 8 - 8 - 8) = 32 * k + i by omega]
    simp [hi, show i - 8 - 8 - 8 < 8 by omega]

theorem readRegWord_encodeBlock {s t : State} {rd : Reg} {len j : Nat} (hr : reg t rd = encodeBlock s len)
    (hb : t.buf = s.buf) (hj : 4 * j + 3 < len) : readRegWord t rd j = readBufWord t j := by
  simp only [readRegWord, hr, ofNat_wordSlice_eq_bytes, readBufWord, bufByte_congr hb]
  rw [byteOf_encodeBlock s hj, byteOf_encodeBlock s (by omega), byteOf_encodeBlock s (by omega),
    byteOf_encodeBlock s (by omega)]

/-- Settles O40: ENCODE's bytes are the base-256 digits of Rd, and both layouts put the lowest one in bits [7:0]. -/
theorem encodedWordsMatchTheBufferWords : Obligations.EncodedWordsMatchTheBufferWords := by
  intro rd s j hlen hbytes hj
  have hzero : blockHasZero s s.blen.toNat = false := by
    rw [← Bool.not_eq_true, blockHasZero_iff]
    exact fun ⟨i, hi, h⟩ => hbytes i hi h
  have hbmax := bmax_div_four s.build
  let t := complete false (setReg rd (encodeBlock s s.blen.toNat) s)
  have hreg : j < t.build.wwords := show j < s.build.wwords by omega
  have hbuf : j < t.build.bmax / 4 := show j < s.build.bmax / 4 by omega
  refine ⟨t, execEncode_ok hlen hzero, ?_⟩
  rw [hostRead_of_target (targetOf_regWord rd hreg), hostRead_of_target (targetOf_bufWord hbuf)]
  exact readRegWord_encodeBlock ((reg_setReg ..).trans (if_pos rfl)) rfl hj

/-! ### The bus (R60, R63, R68) -/

theorem accessServed_of_refused {off size : Nat} (h : size ≠ 4 ∨ off % 4 ≠ 0) : accessServed off size = false := by
  rcases h with h | h <;> simp [accessServed, h]

/-- A refused read answers a bus error with free data and touches nothing of the core (R63). -/
theorem busRead_refused {s : State} {off size : Nat} (ho : off < Config.windowBytes) (h : size ≠ 4 ∨ off % 4 ≠ 0) :
    busRead (s.build.base + off) size s =
      { s with reply := .readError (Config.refusedReadData s.refusedReads), refusedReads := s.refusedReads + 1 } := by
  simp [busRead, windowOffset_base ho, accessServed_of_refused h]

theorem busWrite_refused {s : State} {off size : Nat} (v : Word) (ho : off < Config.windowBytes)
    (h : size ≠ 4 ∨ off % 4 ≠ 0) : busWrite (s.build.base + off) size v s = { s with reply := .writeError } := by
  simp [busWrite, windowOffset_base ho, accessServed_of_refused h]

/-- Settles O24: the access is the next event, so a step is the bus's answer to it. -/
theorem busServesAlignedWordsAndRefusesTheRest : Obligations.BusServesAlignedWordsAndRefusesTheRest := by
  intro s rest off size v ho addr s₀
  have hread : hostRead off s₀ = hostRead off s := rfl
  refine ⟨fun hs => ⟨?_, fun h => ?_⟩, fun hs => ⟨?_, fun h => ?_⟩⟩
  · rintro rfl ha
    rw [step_cons hs, ← hread]
    exact congrArg _ (busRead_served (s := s₀) ho ha)
  · have hstep : step s = .next (busRead addr size s₀) := step_cons hs
    rw [hstep, busRead_refused (s := s₀) ho h]
    exact ⟨_, _, rfl, ⟨rfl, rfl, rfl, rfl, rfl, rfl, rfl, rfl, rfl, rfl, rfl, rfl, rfl, rfl⟩, rfl, rfl⟩
  · rintro rfl ha
    rw [step_cons hs]
    exact congrArg _ (busWrite_served (s := s₀) v ho ha)
  · rw [step_cons hs]
    exact congrArg _ (busWrite_refused (s := s₀) v ho h)

end Sys2Proof.Machine
end

section
/-! SUPPORT. Command words: the decoder and the encoder are inverse, the masks of R94 and the illegal words of R96 say the
same of a word as its decoding, and how an illegal word completes (R90 to R97, R101, R201). -/

namespace Sys2Proof.Machine

/-! ### A word and its fields (R91) -/

theorem getLsbD_eq_of_extractLsb'_eq {w k n i : Nat} {c d : BitVec w} (h : c.extractLsb' k n = d.extractLsb' k n)
    (hk : k ≤ i) (hn : i - k < n) : c.getLsbD i = d.getLsbD i := by
  have hbit := congrArg (·.getLsbD (i - k)) h
  simpa only [BitVec.getLsbD_extractLsb', hn, decide_true, Bool.true_and, Nat.add_sub_cancel' hk] using hbit

/-- The six fields of R91 cover the whole word. -/
theorem word_eq_iff_extracts {c d : Word} :
    c = d ↔ c.extractLsb' 24 8 = d.extractLsb' 24 8 ∧ c.extractLsb' 20 4 = d.extractLsb' 20 4 ∧
      c.extractLsb' 16 4 = d.extractLsb' 16 4 ∧ c.extractLsb' 12 4 = d.extractLsb' 12 4 ∧
      c.extractLsb' 8 4 = d.extractLsb' 8 4 ∧ c.extractLsb' 0 8 = d.extractLsb' 0 8 := by
  refine ⟨fun h => h ▸ ⟨rfl, rfl, rfl, rfl, rfl, rfl⟩, fun ⟨hop, h0, h1, h2, h3, hrsv⟩ => ?_⟩
  apply BitVec.eq_of_getLsbD_eq
  intro i hi
  obtain h | h | h | h | h | h : i < 8 ∨ (8 ≤ i ∧ i < 12) ∨ (12 ≤ i ∧ i < 16) ∨ (16 ≤ i ∧ i < 20) ∨
    (20 ≤ i ∧ i < 24) ∨ 24 ≤ i := by omega
  · exact getLsbD_eq_of_extractLsb'_eq hrsv (Nat.zero_le i) h
  · exact getLsbD_eq_of_extractLsb'_eq h3 h.1 (by omega)
  · exact getLsbD_eq_of_extractLsb'_eq h2 h.1 (by omega)
  · exact getLsbD_eq_of_extractLsb'_eq h1 h.1 (by omega)
  · exact getLsbD_eq_of_extractLsb'_eq h0 h.1 (by omega)
  · exact getLsbD_eq_of_extractLsb'_eq hop h (by omega)

/-- A 4-bit slice and the register index it holds determine each other. -/
theorem slice_eq_iff_reg_eq {x y : BitVec 4} {r q : Reg} (hr : r.val = x.toNat) (hq : q.val = y.toNat) :
    x = y ↔ r = q := by
  rw [← BitVec.toNat_inj, Fin.ext_iff, hr, hq]

theorem slice_eq_zero_iff {x : BitVec 4} {r : Reg} (h : r.val = x.toNat) : x = 0#4 ↔ r = 0 :=
  slice_eq_iff_reg_eq h rfl

theorem extract_op_eq_iff {c : Word} {op : Nat} (h : op < 256) :
    c.extractLsb' 24 8 = BitVec.ofNat 8 op ↔ opField c = op := by
  rw [← BitVec.toNat_inj, ← opField_eq, BitVec.toNat_ofNat, Nat.mod_eq_of_lt h]

theorem extract_rsv_eq_zero_iff {c : Word} : c.extractLsb' 0 8 = 0#8 ↔ rsvField c = 0 := by
  rw [← BitVec.toNat_inj, ← rsvField_eq]
  rfl

/-- A word is a packed word exactly when its fields are the packed ones. -/
theorem eq_packWord_iff {c : Word} {op : Nat} (h : op < 256) {f0 f1 f2 f3 : Reg} :
    c = packWord op f0 f1 f2 f3 ↔
      opField c = op ∧ field0 c = f0 ∧ field1 c = f1 ∧ field2 c = f2 ∧ field3 c = f3 ∧ rsvField c = 0 := by
  rw [word_eq_iff_extracts, slice_eq_iff_reg_eq (field0_eq c) (field0_eq _),
    slice_eq_iff_reg_eq (field1_eq c) (field1_eq _), slice_eq_iff_reg_eq (field2_eq c) (field2_eq _),
    slice_eq_iff_reg_eq (field3_eq c) (field3_eq _), field0_packWord h, field1_packWord h, field2_packWord h,
    field3_packWord h, ← BitVec.toNat_inj, ← BitVec.toNat_inj, ← opField_eq, ← opField_eq, ← rsvField_eq, ← rsvField_eq,
    opField_packWord h, rsvField_packWord h]

/-! ### Decoding an encoded command (R97) -/

/-- Settles O5: the decoder's row for the command's opcode reads back each field that was packed. -/
theorem decodeInvertsEncode : Obligations.DecodeInvertsEncode := by
  intro i hi
  generalize hc : encodeWord i = c
  cases i with
  | modmul rd ra rb rm =>
    obtain ⟨ho, rfl, rfl, rfl, rfl, hr⟩ := (eq_packWord_iff (by decide)).1 hc.symm
    exact decodeWord_modmul hr ho
  | modexp rd rbase rexp rmod =>
    obtain ⟨ho, rfl, rfl, rfl, rfl, hr⟩ := (eq_packWord_iff (by decide)).1 hc.symm
    exact decodeWord_modexp hr ho
  | extgcd rinv rgcd ra rb =>
    obtain ⟨ho, rfl, rfl, rfl, rfl, hr⟩ := (eq_packWord_iff (by decide)).1 hc.symm
    exact (decodeWord_extgcd hr ho).trans (if_neg (bne_iff_ne.1 hi))
  | fermat rn =>
    obtain ⟨ho, h0, rfl, h2, h3, hr⟩ := (eq_packWord_iff (by decide)).1 hc.symm
    exact (decodeWord_fermat hr ho).trans (if_pos ⟨h0, h2, h3⟩)
  | primegen rd rlo rhi =>
    obtain ⟨ho, rfl, rfl, rfl, h3, hr⟩ := (eq_packWord_iff (by decide)).1 hc.symm
    exact (decodeWord_primegen hr ho).trans (if_pos h3)
  | encode rd =>
    obtain ⟨ho, rfl, h1, h2, h3, hr⟩ := (eq_packWord_iff (by decide)).1 hc.symm
    exact (decodeWord_encode hr ho).trans (if_pos ⟨h1, h2, h3⟩)
  | decode rs =>
    obtain ⟨ho, h0, rfl, h2, h3, hr⟩ := (eq_packWord_iff (by decide)).1 hc.symm
    exact (decodeWord_decode hr ho).trans (if_pos ⟨h0, h2, h3⟩)

/-! ### The illegal words (R96) -/

/-- R96 in the terms of the decoder's field readers. -/
theorem illegalByR96_iff_fields (c : Word) :
    illegalByR96 c ↔ opField c = 0 ∨ 7 < opField c ∨ rsvField c ≠ 0 ∨ (opField c = 3 ∧ field0 c = field1 c) ∨
      (opField c = 4 ∧ ¬ (field0 c = 0 ∧ field2 c = 0 ∧ field3 c = 0)) ∨ (opField c = 5 ∧ field3 c ≠ 0) ∨
      (opField c = 6 ∧ ¬ (field1 c = 0 ∧ field2 c = 0 ∧ field3 c = 0)) ∨
      (opField c = 7 ∧ ¬ (field0 c = 0 ∧ field2 c = 0 ∧ field3 c = 0)) := by
  have hop {op : Nat} (h : op < 256) := extract_op_eq_iff (c := c) h
  rw [illegalByR96, slice_eq_iff_reg_eq (field0_eq c) (field1_eq c), ← opField_eq, hop (by decide), hop (by decide),
    hop (by decide), hop (by decide), hop (by decide), hop (by decide)]
  simp only [ne_eq, extract_rsv_eq_zero_iff, slice_eq_zero_iff (field0_eq c), slice_eq_zero_iff (field1_eq c),
    slice_eq_zero_iff (field2_eq c), slice_eq_zero_iff (field3_eq c), not_and_or, Nat.succ_le_iff]

theorem decodeWord_of_illegalByR96 {c : Word} (h : illegalByR96 c) : ∃ why, decodeWord c = .illegal why := by
  by_cases hr : rsvField c = 0
  · rcases (illegalByR96_iff_fields c).1 h with
      ho | ho | hrsv | ⟨ho, hf⟩ | ⟨ho, hf⟩ | ⟨ho, hf⟩ | ⟨ho, hf⟩ | ⟨ho, hf⟩
    · exact ⟨_, decodeWord_otherOpcode hr (.inl ho)⟩
    · exact ⟨_, decodeWord_otherOpcode hr (.inr ho)⟩
    · exact absurd hr hrsv
    · exact ⟨_, (decodeWord_extgcd hr ho).trans (if_pos hf)⟩
    · exact ⟨_, (decodeWord_fermat hr ho).trans (if_neg hf)⟩
    · exact ⟨_, (decodeWord_primegen hr ho).trans (if_neg hf)⟩
    · exact ⟨_, (decodeWord_encode hr ho).trans (if_neg hf)⟩
    · exact ⟨_, (decodeWord_decode hr ho).trans (if_neg hf)⟩
  · exact ⟨_, decodeWord_reserved hr⟩

/-- A word that R96 does not name is some well-formed command's word. -/
theorem exists_encodeWord_of_not_illegalByR96 {c : Word} (h : ¬ illegalByR96 c) :
    ∃ i : Instr, i.wellFormed = true ∧ c = encodeWord i := by
  simp only [illegalByR96_iff_fields, not_or, ne_eq, not_not, not_and_not_right] at h
  obtain ⟨hzero, hlarge, hr, hext, hfer, hgen, henc, hdec⟩ := h
  have hops : opField c = 1 ∨ opField c = 2 ∨ opField c = 3 ∨ opField c = 4 ∨ opField c = 5 ∨ opField c = 6 ∨
    opField c = 7 := by omega
  rcases hops with ho | ho | ho | ho | ho | ho | ho
  · exact ⟨.modmul (field0 c) (field1 c) (field2 c) (field3 c), rfl,
      (eq_packWord_iff (by decide)).2 ⟨ho, rfl, rfl, rfl, rfl, hr⟩⟩
  · exact ⟨.modexp (field0 c) (field1 c) (field2 c) (field3 c), rfl,
      (eq_packWord_iff (by decide)).2 ⟨ho, rfl, rfl, rfl, rfl, hr⟩⟩
  · exact ⟨.extgcd (field0 c) (field1 c) (field2 c) (field3 c), bne_iff_ne.2 fun hf => hext ⟨ho, hf⟩,
      (eq_packWord_iff (by decide)).2 ⟨ho, rfl, rfl, rfl, rfl, hr⟩⟩
  · obtain ⟨h0, h2, h3⟩ := hfer ho
    exact ⟨.fermat (field1 c), rfl, (eq_packWord_iff (by decide)).2 ⟨ho, h0, rfl, h2, h3, hr⟩⟩
  · exact ⟨.primegen (field0 c) (field1 c) (field2 c), rfl,
      (eq_packWord_iff (by decide)).2 ⟨ho, rfl, rfl, rfl, hgen ho, hr⟩⟩
  · obtain ⟨h1, h2, h3⟩ := henc ho
    exact ⟨.encode (field0 c), rfl, (eq_packWord_iff (by decide)).2 ⟨ho, rfl, h1, h2, h3, hr⟩⟩
  · obtain ⟨h0, h2, h3⟩ := hdec ho
    exact ⟨.decode (field1 c), rfl, (eq_packWord_iff (by decide)).2 ⟨ho, h0, rfl, h2, h3, hr⟩⟩

/-- Settles O6: the word is not illegal, so it is the word of some command, which is the one it decodes to. -/
theorem encodeInvertsDecode : Obligations.EncodeInvertsDecode := by
  intro c i hd
  have hlegal : ¬ illegalByR96 c := fun h => by
    obtain ⟨why, hill⟩ := decodeWord_of_illegalByR96 h
    cases hill.symm.trans hd
  obtain ⟨j, hj, rfl⟩ := exists_encodeWord_of_not_illegalByR96 hlegal
  cases (decodeInvertsEncode j hj).symm.trans hd
  exact ⟨rfl, hj⟩

theorem illegalByR96_iff (c : Word) : illegalByR96 c ↔ ∃ why, decodeWord c = .illegal why := by
  refine ⟨decodeWord_of_illegalByR96, fun ⟨why, hill⟩ => by_contra fun hlegal => ?_⟩
  obtain ⟨i, hi, rfl⟩ := exists_encodeWord_of_not_illegalByR96 hlegal
  cases (decodeInvertsEncode i hi).symm.trans hill

/-- The engine's turn comes with nothing scheduled, or as the next event. -/
theorem step_of_engineTurn {s : State} {rest : List Event}
    (h : (s.schedule = [] ∧ rest = []) ∨ s.schedule = .engine :: rest) :
    step s = engineTurn { s with schedule := rest } := by
  rcases h with ⟨hs, rfl⟩ | hs
  · rw [step_nil hs, ← hs]
  · exact step_engine hs

/-- Settles O8: the pending word decodes to no command, and the error sets the flags of R205 alone. -/
theorem illegalWordsCompleteWithIllegalCommand : Obligations.IllegalWordsCompleteWithIllegalCommand := by
  refine ⟨illegalByR96_iff, fun s rest hb hill hturn => ?_⟩
  obtain ⟨why, hd⟩ := decodeWord_of_illegalByR96 hill
  rw [step_of_engineTurn hturn]
  exact engineTurn_illegal hb hd

/-! ### The opcode map (R94) -/

/-- A word decodes to a command exactly when the command is well formed and the word is its own. -/
theorem decodeWord_eq_command_iff {c : Word} {i : Instr} :
    decodeWord c = .command i ↔ i.wellFormed = true ∧ c = encodeWord i := by
  constructor
  · intro hd
    obtain ⟨hc, hi⟩ := encodeInvertsDecode c i hd
    exact ⟨hi, hc.symm⟩
  · rintro ⟨hi, rfl⟩
    exact decodeInvertsEncode i hi

/-- A mask that keeps OP and RSV asks for the OP of the row, RSV = 0, and 0 in the register fields that it keeps. -/
theorem and_mask_eq_packWord_iff {c m : Word} {op : Nat} (h : op < 256)
    (hop : m.extractLsb' 24 8 = BitVec.allOnes 8) (hrsv : m.extractLsb' 0 8 = BitVec.allOnes 8) :
    c &&& m = packWord op 0 0 0 0 ↔ opField c = op ∧ c.extractLsb' 20 4 &&& m.extractLsb' 20 4 = 0#4 ∧
      c.extractLsb' 16 4 &&& m.extractLsb' 16 4 = 0#4 ∧ c.extractLsb' 12 4 &&& m.extractLsb' 12 4 = 0#4 ∧
      c.extractLsb' 8 4 &&& m.extractLsb' 8 4 = 0#4 ∧ rsvField c = 0 := by
  obtain ⟨ho, h0, h1, h2, h3, hr⟩ := (eq_packWord_iff h (f0 := 0) (f1 := 0) (f2 := 0) (f3 := 0)).1 rfl
  rw [← extract_op_eq_iff h] at ho ⊢
  rw [← slice_eq_zero_iff (field0_eq _)] at h0
  rw [← slice_eq_zero_iff (field1_eq _)] at h1
  rw [← slice_eq_zero_iff (field2_eq _)] at h2
  rw [← slice_eq_zero_iff (field3_eq _)] at h3
  rw [← extract_rsv_eq_zero_iff] at hr ⊢
  simp only [word_eq_iff_extracts, BitVec.extractLsb'_and, hop, hrsv, BitVec.and_allOnes, ho, h0, h1, h2, h3, hr]

theorem slice_and_ones_eq_zero_iff {x : BitVec 4} {r : Reg} (h : r.val = x.toNat) : x &&& 0xF#4 = 0#4 ↔ r = 0 := by
  rw [show 0xF#4 = BitVec.allOnes 4 from rfl, BitVec.and_allOnes]
  exact slice_eq_zero_iff h

/-- MODMUL, MODEXP and EXTGCD: every field names a register. -/
theorem and_maskF0123_iff {c : Word} {op : Nat} (h : op < 256) :
    c &&& 0xFF0000FF#32 = packWord op 0 0 0 0 ↔ opField c = op ∧ rsvField c = 0 := by
  rw [and_mask_eq_packWord_iff h rfl rfl]
  simp

/-- FERMAT and DECODE: F1 names a register. -/
theorem and_maskF1_iff {c : Word} {op : Nat} (h : op < 256) :
    c &&& 0xFFF0FFFF#32 = packWord op 0 0 0 0 ↔
      opField c = op ∧ field0 c = 0 ∧ field2 c = 0 ∧ field3 c = 0 ∧ rsvField c = 0 := by
  rw [and_mask_eq_packWord_iff h rfl rfl]
  simp [slice_and_ones_eq_zero_iff (field0_eq c), slice_and_ones_eq_zero_iff (field2_eq c),
    slice_and_ones_eq_zero_iff (field3_eq c)]

/-- PRIMEGEN: F0, F1 and F2 name registers. -/
theorem and_maskF012_iff {c : Word} {op : Nat} (h : op < 256) :
    c &&& 0xFF000FFF#32 = packWord op 0 0 0 0 ↔ opField c = op ∧ field3 c = 0 ∧ rsvField c = 0 := by
  rw [and_mask_eq_packWord_iff h rfl rfl]
  simp [slice_and_ones_eq_zero_iff (field3_eq c)]

/-- ENCODE: F0 names a register. -/
theorem and_maskF0_iff {c : Word} {op : Nat} (h : op < 256) :
    c &&& 0xFF0FFFFF#32 = packWord op 0 0 0 0 ↔
      opField c = op ∧ field1 c = 0 ∧ field2 c = 0 ∧ field3 c = 0 ∧ rsvField c = 0 := by
  rw [and_mask_eq_packWord_iff h rfl rfl]
  simp [slice_and_ones_eq_zero_iff (field1_eq c), slice_and_ones_eq_zero_iff (field2_eq c),
    slice_and_ones_eq_zero_iff (field3_eq c)]

/-- Settles O7: a row's mask and operands together fix every field, as being the command's word does. -/
theorem decoderAgreesWithTheMasks : Obligations.DecoderAgreesWithTheMasks := by
  intro c
  simp only [← field0_eq, ← field1_eq, ← field2_eq, ← field3_eq, Fin.val_inj, decodeWord_eq_command_iff,
    Instr.wellFormed, bne_iff_ne, encodeWord, eq_packWord_iff, Nat.reduceLT]
  refine ⟨fun rd ra rb rm => ?_, fun rd rbase rexp rmod => ?_, fun rinv rgcd ra rb => ?_, fun rn => ?_,
    fun rd rlo rhi => ?_, fun rd => ?_, fun rs => ?_⟩
  · have hmask : c &&& 0xFF0000FF#32 = 0x01000000#32 ↔ _ := and_maskF0123_iff (op := 0x01) (by decide)
    rw [hmask]
    tauto
  · have hmask : c &&& 0xFF0000FF#32 = 0x02000000#32 ↔ _ := and_maskF0123_iff (op := 0x02) (by decide)
    rw [hmask]
    tauto
  · have hmask : c &&& 0xFF0000FF#32 = 0x03000000#32 ↔ _ := and_maskF0123_iff (op := 0x03) (by decide)
    rw [hmask, (slice_eq_iff_reg_eq (field0_eq c) (field1_eq c)).ne]
    constructor
    · rintro ⟨hne, ho, rfl, rfl, rfl, rfl, hr⟩
      exact ⟨⟨ho, hr⟩, hne, rfl, rfl, rfl, rfl⟩
    · rintro ⟨⟨ho, hr⟩, hne, rfl, rfl, rfl, rfl⟩
      exact ⟨hne, ho, rfl, rfl, rfl, rfl, hr⟩
  · have hmask : c &&& 0xFFF0FFFF#32 = 0x04000000#32 ↔ _ := and_maskF1_iff (op := 0x04) (by decide)
    rw [hmask]
    tauto
  · have hmask : c &&& 0xFF000FFF#32 = 0x05000000#32 ↔ _ := and_maskF012_iff (op := 0x05) (by decide)
    rw [hmask]
    tauto
  · have hmask : c &&& 0xFF0FFFFF#32 = 0x06000000#32 ↔ _ := and_maskF0_iff (op := 0x06) (by decide)
    rw [hmask]
    tauto
  · have hmask : c &&& 0xFFF0FFFF#32 = 0x07000000#32 ↔ _ := and_maskF1_iff (op := 0x07) (by decide)
    rw [hmask]
    tauto

/-! ### The spec's examples (R101) -/

/-- Settles O9: closed words, each refused one with its reason. -/
theorem exampleWordsDecode : Obligations.ExampleWordsDecode :=
  ⟨by decide, by decide, by decide, by decide, by decide, by decide, by decide, by decide,
    ⟨.sameDestinations, by decide⟩, ⟨.reservedBits, by decide⟩, ⟨.reservedOpcode, by decide⟩,
    ⟨.reservedOpcode, by decide⟩⟩

end Sys2Proof.Machine
end

section
/-! SUPPORT. The modular arithmetic commands: square-and-multiply computes the exact power reduced, and what MODMUL and MODEXP
write (R121, R125 to R128). -/

namespace Sys2Proof.Machine

/-! ### Illegal words of a known opcode -/

/-- RSV not 0 makes a word illegal whatever its opcode (R96). -/
theorem decodeWord_of_extract_rsv_ne_zero {c : Word} (h : c.extractLsb' 0 8 ≠ 0#8) : ∃ why, decodeWord c = .illegal why :=
  ⟨_, decodeWord_reserved (extract_rsv_eq_zero_iff.not.1 h)⟩

/-! ### MODMUL -/

/-- Settles O27: the two outcomes of MODMUL are the two cases of its modulus. -/
theorem modmulResult : Obligations.ModmulResult := fun _ _ _ _ _ =>
  ⟨execModmul_ok, execModmul_error, fun _ _ => decodeWord_of_extract_rsv_ne_zero⟩

/-! ### Square-and-multiply -/

/-- One iteration of R126 keeps `result * base ^ exp` modulo `m`: the exponent's low bit goes into the result, and the rest of
it into the square of the base. -/
theorem modexp_iteration_modEq (result base exp m : Nat) :
    (if exp % 2 = 1 then result * base % m else result) * (base * base % m) ^ (exp / 2) ≡ result * base ^ exp [MOD m] := by
  have hresult : (if exp % 2 = 1 then result * base % m else result) ≡ result * base ^ (exp % 2) [MOD m] := by
    obtain hbit | hbit := Nat.mod_two_eq_zero_or_one exp
    · simp [hbit, Nat.ModEq.refl]
    · simp [hbit, Nat.mod_modEq]
  have hbase : (base * base % m) ^ (exp / 2) ≡ base ^ (2 * (exp / 2)) [MOD m] := by
    rw [pow_mul, sq]
    exact (Nat.mod_modEq _ _).pow _
  calc (if exp % 2 = 1 then result * base % m else result) * (base * base % m) ^ (exp / 2)
      ≡ result * base ^ (exp % 2) * base ^ (2 * (exp / 2)) [MOD m] := hresult.mul hbase
    _ = result * base ^ exp := by rw [mul_assoc, ← pow_add, Nat.mod_add_div]

/-- With fuel for each bit of the exponent the loop ends at exponent 0. -/
theorem modexpLoop_modEq {fuel exp : Nat} (result base m : Nat) (hfuel : exp < 2 ^ fuel) :
    modexpLoop fuel result base exp m ≡ result * base ^ exp [MOD m] := by
  induction fuel generalizing result base exp with
  | zero =>
    obtain rfl : exp = 0 := by omega
    rw [modexpLoop, pow_zero, mul_one]
  | succ fuel ih =>
    rw [modexpLoop]
    split
    case isTrue hzero => rw [hzero, pow_zero, mul_one]
    case isFalse => exact (ih _ _ (by omega)).trans (modexp_iteration_modEq result base exp m)

/-- R128. -/
theorem modexp_eq_pow_mod (b e : Nat) {m : Nat} (hm : 0 < m) : modexp b e m = b ^ e % m := by
  have hcong : modexp b e m ≡ b ^ e [MOD m] :=
    calc modexp b e m
        ≡ 1 % m * b ^ e [MOD m] := modexpLoop_modEq _ _ _ Nat.lt_log2_self
      _ ≡ 1 * b ^ e [MOD m] := (Nat.mod_modEq 1 m).mul_right _
      _ = b ^ e := one_mul _
  exact (Nat.mod_eq_of_lt (modexp_lt b e hm)).symm.trans hcong

/-! ### MODEXP -/

/-- Settles O28: the loop's invariant gives the exact power, so a base and its remainder give the same. -/
theorem modexpResult : Obligations.ModexpResult := by
  refine ⟨fun rd rbase rexp rmod s => ⟨fun hm => ?_, execModexp_error⟩,
    fun b e m hm => ⟨modexp_eq_pow_mod b e hm, ?_⟩,
    fun _ _ => decodeWord_of_extract_rsv_ne_zero⟩
  · rw [← modexp_eq_pow_mod _ _ (Nat.pos_of_ne_zero hm)]
    exact execModexp_ok hm
  · rw [modexp_eq_pow_mod b e hm, modexp_eq_pow_mod (b % m) e hm, ← Nat.pow_mod]

end Sys2Proof.Machine
end

section
/-! SUPPORT. EXTGCD: the laws that every run of R141's recurrence keeps, the model's loop as such a run, and the pair
that EXTGCD writes (R140 to R142). -/

namespace Sys2Proof.Machine

/-! ### The loop and its pair (R141) -/

theorem extGcdLoop_succ (fuel oldR r : Nat) (oldT t : Int) :
    extGcdLoop (fuel + 1) oldR r oldT t = if r = 0 then (oldT, oldR)
      else extGcdLoop fuel r (oldR - oldR / r * r) t (oldT - ((oldR / r : Nat) : Int) * t) := rfl

theorem extGcd_of_loop {a b g : Nat} {t : Int} (h : extGcdLoop (b + 1) a b 0 1 = (t, g)) :
    extGcd a b = ((t % (a : Int)).toNat, g) :=
  congrArg (fun p : Int × Nat => ((p.1 % (a : Int)).toNat, p.2)) h

/-! ### What a run of the recurrence keeps (R141) -/

section Run
variable {a b n : Nat} {r : Nat → Nat} {t : Nat → Int}

/-- One iteration takes the remainder of the last two. -/
theorem extGcdRun_step (h : extGcdRun a b n r t) {k : Nat} (hk : k < n) :
    r (k + 1) ≠ 0 ∧ r (k + 2) = r k % r (k + 1) ∧ t (k + 2) = t k - ((r k / r (k + 1) : Nat) : Int) * t (k + 1) := by
  obtain ⟨-, -, -, -, hiter, -⟩ := h
  obtain ⟨hne, hr, ht⟩ := hiter k hk
  exact ⟨hne, hr.trans Nat.mod_eq_sub_div_mul.symm, ht⟩

theorem extGcdRun_end (h : extGcdRun a b n r t) : r (n + 1) = 0 := by
  obtain ⟨-, -, -, -, -, hend⟩ := h
  exact hend

/-- With more fuel than the remainder, the loop follows the run from any of its iterations to the end. -/
theorem extGcdLoop_eq_of_run (h : extGcdRun a b n r t) {fuel k : Nat} (hk : k ≤ n) (hfuel : r (k + 1) < fuel) :
    extGcdLoop fuel (r k) (r (k + 1)) (t k) (t (k + 1)) = (t n, r n) := by
  induction fuel generalizing k with
  | zero => exact absurd hfuel (Nat.not_lt_zero _)
  | succ fuel ih =>
    rw [extGcdLoop_succ]
    rcases Nat.lt_or_eq_of_le hk with hlt | rfl
    · obtain ⟨hne, hr, ht⟩ := extGcdRun_step h hlt
      have hdecr : r (k + 2) < r (k + 1) := hr ▸ Nat.mod_lt _ (Nat.pos_of_ne_zero hne)
      rw [if_neg hne, ← Nat.mod_eq_sub_div_mul, ← hr, ← ht]
      exact ih hlt (hdecr.trans_le (Nat.le_of_lt_succ hfuel))
    · rw [if_pos (extGcdRun_end h)]

theorem extGcdLoop_start_eq_of_run (h : extGcdRun a b n r t) {fuel : Nat} (hfuel : b < fuel) :
    extGcdLoop fuel a b 0 1 = (t n, r n) := by
  have hloop := extGcdLoop_eq_of_run (fuel := fuel) h (Nat.zero_le n)
  obtain ⟨rfl, rfl, ht0, ht1, -, -⟩ := h
  rw [ht0, ht1] at hloop
  exact hloop hfuel

theorem extGcd_eq_of_run (h : extGcdRun a b n r t) : extGcd a b = ((t n % (a : Int)).toNat, r n) :=
  extGcd_of_loop (extGcdLoop_start_eq_of_run h (Nat.lt_succ_self b))

/-- Every iteration keeps the gcd of the two remainders. -/
theorem extGcdRun_gcd (h : extGcdRun a b n r t) {k : Nat} (hk : k ≤ n) :
    Nat.gcd (r k) (r (k + 1)) = Nat.gcd a b := by
  induction k with
  | zero =>
    obtain ⟨rfl, rfl, -⟩ := h
    rfl
  | succ k ih =>
    obtain ⟨-, hr, -⟩ := extGcdRun_step h hk
    rw [hr, Nat.gcd_comm, ← Nat.gcd_rec, Nat.gcd_comm]
    exact ih (Nat.le_of_succ_le hk)

theorem extGcdRun_last_remainder (h : extGcdRun a b n r t) : r n = Nat.gcd a b := by
  rw [← extGcdRun_gcd h (Nat.le_refl n), extGcdRun_end h, Nat.gcd_zero_right]

/-- The invariant of R142: each remainder is its coefficient times `b`, modulo `a`. -/
theorem extGcdRun_modEq (h : extGcdRun a b n r t) {k : Nat} (hk : k ≤ n) :
    t k * b ≡ r k [ZMOD a] ∧ t (k + 1) * b ≡ r (k + 1) [ZMOD a] := by
  induction k with
  | zero =>
    obtain ⟨rfl, rfl, ht0, ht1, -, -⟩ := h
    rw [ht0, ht1, zero_mul, one_mul]
    exact ⟨(Int.modEq_zero_iff_dvd.2 (dvd_refl _)).symm, Int.ModEq.refl _⟩
  | succ k ih =>
    obtain ⟨hold, hcur⟩ := ih (Nat.le_of_succ_le hk)
    refine ⟨hcur, ?_⟩
    obtain ⟨-, hr, ht⟩ := extGcdRun_step h hk
    calc t (k + 2) * b
        = t k * b - ((r k / r (k + 1) : Nat) : Int) * (t (k + 1) * b) := by rw [ht]; ring
      _ ≡ r k - ((r k / r (k + 1) : Nat) : Int) * r (k + 1) [ZMOD a] := hold.sub (hcur.mul_left _)
      _ = r (k + 2) := by rw [hr, Int.natCast_mod, Int.emod_def, Int.natCast_div, mul_comm (r (k + 1) : Int)]

end Run

/-! ### Every pair has a run, which is not longer than R142 law 6 says -/

/-- The remainders that R141's loop would run through, were it not stopped at remainder 0. -/
def remainderSeq (a b : Nat) : Nat → Nat
  | 0 => a
  | 1 => b
  | k + 2 => remainderSeq a b k - remainderSeq a b k / remainderSeq a b (k + 1) * remainderSeq a b (k + 1)

/-- The coefficients of `b` that go with these remainders. -/
def coefficientSeq (a b : Nat) : Nat → Int
  | 0 => 0
  | 1 => 1
  | k + 2 =>
    coefficientSeq a b k - ((remainderSeq a b k / remainderSeq a b (k + 1) : Nat) : Int) * coefficientSeq a b (k + 1)

theorem remainderSeq_lt {a b k : Nat} (h : remainderSeq a b (k + 1) ≠ 0) :
    remainderSeq a b (k + 1 + 1) < remainderSeq a b (k + 1) := by
  rw [remainderSeq, ← Nat.mod_eq_sub_div_mul]
  exact Nat.mod_lt _ (Nat.pos_of_ne_zero h)

/-- While it is not 0, the remainder loses at least 1 in an iteration. -/
theorem remainderSeq_add_le {a b k : Nat} (h : ∀ j, j < k → remainderSeq a b (j + 1) ≠ 0) :
    remainderSeq a b (k + 1) + k ≤ b := by
  induction k with
  | zero => exact Nat.le_refl b
  | succ k ih =>
    have hle := ih fun j hj => h j (Nat.lt_succ_of_lt hj)
    have hlt := remainderSeq_lt (h k (Nat.lt_succ_self k))
    omega

theorem remainderSeq_reaches_zero (a b : Nat) : ∃ n, n ≤ b ∧ remainderSeq a b (n + 1) = 0 := by
  by_contra hne
  push Not at hne
  have hle := remainderSeq_add_le (a := a) fun j hj => hne j (Nat.le_of_lt hj)
  exact hne b (Nat.le_refl b) (by omega)

/-- Stopped at its first remainder 0, the sequence is a run. -/
theorem exists_extGcdRun (a b : Nat) : ∃ n r t, n ≤ b ∧ extGcdRun a b n r t := by
  have hex : ∃ n, remainderSeq a b (n + 1) = 0 := (remainderSeq_reaches_zero a b).imp fun _ => And.right
  obtain ⟨m, hm, hzero⟩ := remainderSeq_reaches_zero a b
  exact ⟨Nat.find hex, remainderSeq a b, coefficientSeq a b, (Nat.find_min' hex hzero).trans hm, rfl, rfl, rfl, rfl,
    fun k hk => ⟨Nat.find_min hex hk, rfl, rfl⟩, Nat.find_spec hex⟩

/-! ### The pair of `ext_gcd` (R142) -/

theorem extGcd_snd (a b : Nat) : (extGcd a b).2 = Nat.gcd a b := by
  obtain ⟨n, r, t, -, hrun⟩ := exists_extGcdRun a b
  rw [extGcd_eq_of_run hrun]
  exact extGcdRun_last_remainder hrun

theorem extGcdLoop_eq_of_fuel {a b fuel fuel' : Nat} (h : b < fuel) (h' : b < fuel') :
    extGcdLoop fuel a b 0 1 = extGcdLoop fuel' a b 0 1 := by
  obtain ⟨n, r, t, -, hrun⟩ := exists_extGcdRun a b
  rw [extGcdLoop_start_eq_of_run hrun h, extGcdLoop_start_eq_of_run hrun h']

/-- R142 law 3. -/
theorem extGcd_fst_mul_modEq {a : Nat} (b : Nat) (ha : 0 < a) : (extGcd a b).1 * b ≡ (extGcd a b).2 [MOD a] := by
  obtain ⟨n, r, t, -, hrun⟩ := exists_extGcdRun a b
  rw [extGcd_eq_of_run hrun]
  have hnonneg : 0 ≤ t n % (a : Int) := Int.emod_nonneg _ (Int.natCast_ne_zero.2 (Nat.ne_of_gt ha))
  rw [← Int.natCast_modEq_iff, Nat.cast_mul, Int.toNat_of_nonneg hnonneg]
  exact ((Int.mod_modEq _ _).mul_right _).trans (extGcdRun_modEq hrun (Nat.le_refl n)).1

/-- With gcd 1 the inverse is the only one below `a`, so it depends on `b mod a` alone. -/
theorem extGcd_fst_mod {a b : Nat} (ha : 0 < a) (hg : (extGcd a b).2 = 1) :
    (extGcd a (b % a)).1 = (extGcd a b).1 := by
  have hg' : (extGcd a (b % a)).2 = 1 := by rw [extGcd_snd, ← hg, extGcd_snd, Nat.gcd_comm, ← Nat.gcd_rec]
  have hprod : (extGcd a (b % a)).1 * b ≡ (extGcd a b).1 * b [MOD a] :=
    calc (extGcd a (b % a)).1 * b
        ≡ (extGcd a (b % a)).1 * (b % a) [MOD a] := ((Nat.mod_modEq b a).mul_left _).symm
      _ ≡ 1 [MOD a] := hg' ▸ extGcd_fst_mul_modEq (b % a) ha
      _ ≡ (extGcd a b).1 * b [MOD a] := (hg ▸ extGcd_fst_mul_modEq b ha).symm
  have hcop : Nat.gcd a b = 1 := (extGcd_snd a b).symm.trans hg
  exact (hprod.cancel_right_of_coprime hcop).eq_of_lt_of_lt (extGcd_fst_lt _ ha) (extGcd_fst_lt _ ha)

theorem extGcd_zero (a : Nat) : extGcd a 0 = (0, a) := by
  rw [extGcd_of_loop (extGcdLoop_succ 0 a 0 0 1), Int.zero_emod, Int.toNat_zero]

/-- The first iteration ends the loop. -/
theorem extGcd_self {a : Nat} (ha : 0 < a) : extGcd a a = (1 % a, a) := by
  have hloop : extGcdLoop (a + 1) a a 0 1 = (1, a) := by
    obtain ⟨m, rfl⟩ := Nat.exists_eq_succ_of_ne_zero (Nat.ne_of_gt ha)
    simp [extGcdLoop_succ, Nat.div_self ha]
  have hinv : ((1 : Int) % a).toNat = 1 % a := by rw [← Nat.cast_one, ← Int.natCast_mod, Int.toNat_natCast]
  rw [extGcd_of_loop hloop, hinv]

theorem extGcd_one (b : Nat) : extGcd 1 b = (0, 1) :=
  Prod.ext (Nat.lt_one_iff.1 (extGcd_fst_lt b Nat.one_pos)) ((extGcd_snd 1 b).trans (Nat.gcd_one_left b))

/-! ### The command (R140) -/

/-- Settles O29: a run of the recurrence is the loop's, and gcd and inverse are what the laws say of them. -/
theorem extgcdResult : Obligations.ExtgcdResult := by
  refine ⟨fun rinv rgcd ra rb s hne => ⟨execExtgcd_ok hne, execExtgcd_error hne⟩,
    fun a ha => ⟨extGcd_zero a, extGcd_self ha⟩, extGcd_one, fun a b ha => ⟨?_, extGcd_fst_mod ha⟩,
    fun a b n r t _ => extGcd_eq_of_run, fun c hop hbad => decodeWord_of_illegalByR96 ?_⟩
  · rw [extGcd_snd, extGcd_snd, Nat.gcd_comm, ← Nat.gcd_rec]
  · rcases hbad with hrsv | hdest
    · exact .inr (.inr (.inl hrsv))
    · exact .inr (.inr (.inr (.inl ⟨hop, hdest⟩)))

/-- Settles O30: the gcd and the congruence are those of the run, whose length also bounds the fuel. -/
theorem extgcdLaws : Obligations.ExtgcdLaws := by
  intro a b ha inv g
  have hgcd : g = Nat.gcd a b := extGcd_snd a b
  have hpos : 1 ≤ g := hgcd ▸ Nat.gcd_pos_of_pos_left b ha
  have hle : g ≤ a := hgcd ▸ Nat.gcd_le_left b ha
  have hlt : inv < a := extGcd_fst_lt b ha
  have hlaw : inv * b % a = g % a := extGcd_fst_mul_modEq b ha
  refine ⟨hgcd, hpos, hle, hlt, hlaw, fun hone h2 => ?_, fun w hw => ⟨hlt.trans hw, hle.trans_lt hw⟩,
    fun k hk => extGcdLoop_eq_of_fuel hk (Nat.lt_succ_self b), ?_⟩
  · rw [hlaw, hone, Nat.mod_eq_of_lt h2]
  · obtain ⟨n, r, t, hn, hrun⟩ := exists_extGcdRun a b
    exact ⟨n, r, t, Nat.le_succ_of_le hn, hrun⟩

end Sys2Proof.Machine
end

section
/-! SUPPORT. FERMAT: its verdict and draws in terms of the witnesses that the source gives, and what the verdict says of
the number tested (R144 to R146, R222). -/

namespace Sys2Proof.Machine

/-! ### The test and its draws (R145) -/

theorem fermatPasses_eq_fermatHolds {n : Nat} (hn : 0 < n) (a : Nat) : fermatPasses n a = fermatHolds n a :=
  congrArg (· == 1) (modexp_eq_pow_mod a (n - 1) hn)

theorem fermatHolds_eq_true_iff {n a : Nat} : fermatHolds n a = true ↔ a ^ (n - 1) % n = 1 := beq_iff_eq

theorem drawWitness_cons (n raw : Nat) (rest : List Nat) (k : Nat) :
    drawWitness n { supplied := raw :: rest, spent := k } =
      (witnessOf n raw, { supplied := rest, spent := k + 1 }) := rfl

theorem witnesses_succ (n k : Nat) (e : Entropy) :
    witnesses n (k + 1) e = (drawWitness n e).1 :: witnesses n k (drawWitness n e).2 := rfl

theorem afterDraws_succ_witness (n k : Nat) (e : Entropy) :
    afterDraws (k + 1) e = afterDraws k (drawWitness n e).2 := rfl

theorem fermat_succ (n T : Nat) (e : Entropy) :
    fermat n (T + 1) e = if fermatPasses n (drawWitness n e).1 then fermat n T (drawWitness n e).2
      else (false, (drawWitness n e).2) := rfl

theorem mem_witnesses_range {n k a : Nat} {e : Entropy} (hn : 3 < n) (ha : a ∈ witnesses n k e) :
    2 ≤ a ∧ a ≤ n - 2 := by
  induction k generalizing e with
  | zero => cases ha
  | succ k ih =>
    rcases List.mem_cons.1 ha with rfl | hrest
    · exact witnessOf_range hn _
    · exact ih hrest

/-- The verdict is that of all the witnesses, and the draws end with the first that fails. -/
theorem fermat_eq {n : Nat} (hn : 0 < n) (T : Nat) (e : Entropy) :
    fermat n T e = ((witnesses n T e).all (fun a => fermatHolds n a),
      afterDraws (min T ((witnesses n T e).findIdx (fun a => !fermatHolds n a) + 1)) e) := by
  induction T generalizing e with
  | zero =>
    rw [Nat.zero_min]
    rfl
  | succ T ih =>
    rw [fermat_succ, fermatPasses_eq_fermatHolds hn, witnesses_succ, List.all_cons, List.findIdx_cons]
    cases hpass : fermatHolds n (drawWitness n e).1 with
    | false =>
      have hone : min (T + 1) (0 + 1) = 1 := by omega
      simp only [Bool.not_false, cond_true, Bool.false_and, hone]
      rfl
    | true =>
      simp only [Bool.not_true, cond_false, Bool.true_and, if_true, Nat.add_min_add_right, afterDraws_succ_witness n]
      exact ih _

/-! ### The command (R144) -/

/-- Every witness drawn passes, of the `TRIALS` that the source gives for the number in the register. -/
def fermatVerdict (rn : Reg) (s : State) : Bool :=
  (witnesses (reg s rn) s.trials.toNat s.entropy).all (fun a => fermatHolds (reg s rn) a)

theorem exec_fermat_ok {rn : Reg} {s : State} (hn : 3 < reg s rn) (hodd : reg s rn % 2 = 1) :
    exec (.fermat rn) s = .next (complete (fermatVerdict rn s) { s with
      entropy := afterDraws (min s.trials.toNat ((witnesses (reg s rn) s.trials.toNat s.entropy).findIdx
        (fun a => !fermatHolds (reg s rn) a) + 1)) s.entropy }) := by
  have hok : exec (.fermat rn) s = _ := execFermat_ok (by omega)
  rw [hok, fermat_eq (by omega)]
  rfl

theorem prime_of_exec_fermat {rn : Reg} {s t : State} (hn : 3 < reg s rn) (hodd : reg s rn % 2 = 1)
    (h : exec (.fermat rn) s = .next t) : t.prime = fermatVerdict rn s := by
  cases (exec_fermat_ok hn hodd).symm.trans h
  rfl

/-- Settles O31: the verdict and the draws are the test's. -/
theorem fermatResult : Obligations.FermatResult := by
  refine ⟨fun rn s => ⟨fun hn hodd => ⟨exec_fermat_ok hn hodd, ?_, fun a => mem_witnesses_range hn⟩,
    execFermat_error⟩, fun c hop hbad => decodeWord_of_illegalByR96 ?_⟩
  · exact witnesses_length _ _ _
  · unfold illegalByR96
    tauto

/-! ### What the verdict says (R146) -/

/-- Fermat's little theorem, for an exponent that `p - 1` divides. -/
theorem pow_modEq_one_of_sub_one_dvd {p m a : Nat} (hp : Nat.Prime p) (ha : Nat.Coprime a p) (hm : p - 1 ∣ m) :
    a ^ m ≡ 1 [MOD p] := by
  obtain ⟨k, rfl⟩ := hm
  rw [pow_mul, ← Nat.totient_prime hp]
  simpa using (Nat.ModEq.pow_totient ha).pow k

theorem fermatHolds_of_prime {n a : Nat} (hn : Nat.Prime n) (ha : Nat.Coprime a n) : fermatHolds n a = true := by
  have hpow : a ^ (n - 1) % n = 1 % n := pow_modEq_one_of_sub_one_dvd hn ha (dvd_refl _)
  rw [fermatHolds_eq_true_iff, hpow, Nat.mod_eq_of_lt hn.one_lt]

theorem coprime_of_witness_of_prime {n a : Nat} (hn : Nat.Prime n) (h2 : 2 ≤ a) (ha : a ≤ n - 2) : Nat.Coprime a n :=
  (Nat.coprime_of_lt_prime (by omega) (by omega) hn).symm

theorem witness_of_prime_passes {n k a : Nat} {e : Entropy} (hn : Nat.Prime n) (h3 : 3 < n)
    (ha : a ∈ witnesses n k e) : fermatHolds n a = true := by
  obtain ⟨h2, hle⟩ := mem_witnesses_range h3 ha
  exact fermatHolds_of_prime hn (coprime_of_witness_of_prime hn h2 hle)

/-- 561 = 3 * 11 * 17, and 2, 10 and 16 divide 560. -/
theorem fermatHolds_561 {a : Nat} (ha : Nat.Coprime a 561) : fermatHolds 561 a = true := by
  have h3 : a ^ (561 - 1) ≡ 1 [MOD 3] :=
    pow_modEq_one_of_sub_one_dvd (by decide) (ha.coprime_dvd_right (by decide)) (by decide)
  have h11 : a ^ (561 - 1) ≡ 1 [MOD 11] :=
    pow_modEq_one_of_sub_one_dvd (by decide) (ha.coprime_dvd_right (by decide)) (by decide)
  have h17 : a ^ (561 - 1) ≡ 1 [MOD 17] :=
    pow_modEq_one_of_sub_one_dvd (by decide) (ha.coprime_dvd_right (by decide)) (by decide)
  have h33 : a ^ (561 - 1) ≡ 1 [MOD 3 * 11] := (Nat.modEq_and_modEq_iff_modEq_mul (by decide)).1 ⟨h3, h11⟩
  have h561 : a ^ (561 - 1) ≡ 1 [MOD 3 * 11 * 17] := (Nat.modEq_and_modEq_iff_modEq_mul (by decide)).1 ⟨h33, h17⟩
  exact fermatHolds_eq_true_iff.2 h561

/-- No `a` in [2, 7] or [2, 25] is a liar of 9 or 27. -/
theorem no_liars_of_9_and_27 {n a : Nat} (hn : n = 9 ∨ n = 27) (h2 : 2 ≤ a) (ha : a ≤ n - 2) :
    fermatHolds n a = false := by
  rcases hn with rfl | rfl
  · have hall : ∀ b < 8, 2 ≤ b → fermatHolds 9 b = false := by decide
    exact hall a (by omega) h2
  · have hall : ∀ b < 26, 2 ≤ b → fermatHolds 27 b = false := by decide
    exact hall a (by omega) h2

/-- A source that has the raw draw of `a` ready each time gives `a` each time. -/
theorem witnesses_replicate {n a : Nat} (h2 : 2 ≤ a) (ha : a ≤ n - 2) (k spent : Nat) :
    witnesses n k { supplied := List.replicate k (a - 2), spent := spent } = List.replicate k a := by
  induction k generalizing spent with
  | zero => rfl
  | succ k ih =>
    rw [witnesses_succ, List.replicate_succ, List.replicate_succ, drawWitness_cons]
    exact congrArg₂ _ (witnessOf_surjective h2 ha) (ih _)

theorem fermatVerdict_eq_false_of_no_liar {rn : Reg} {s : State} (hn : 3 < reg s rn) (htrials : s.trials ≠ 0#16)
    (hno : ∀ a, 2 ≤ a → a ≤ reg s rn - 2 → fermatHolds (reg s rn) a = false) : fermatVerdict rn s = false := by
  obtain ⟨T, hT⟩ := Nat.exists_eq_succ_of_ne_zero (BitVec.toNat_pos_of_ne_zero htrials).ne'
  obtain ⟨h2, hle⟩ := witnessOf_range hn (drawRaw s.entropy).1
  rw [fermatVerdict, hT, witnesses_succ, List.all_cons, Bool.and_eq_false_iff]
  exact .inl (hno _ h2 hle)

/-- Settles O32: every witness of a prime passes, so a failing one proves n composite. -/
theorem fermatVerdictsAreSound : Obligations.FermatVerdictsAreSound := by
  refine ⟨fun rn s t hn hodd h => ?_, fun n a hp h2 ha => ?_, fun n hn a => no_liars_of_9_and_27 hn,
    fun rn s a hn hodd h2 ha hliar => ?_, fun a _ _ => fermatHolds_561⟩
  · rw [prime_of_exec_fermat hn hodd h]
    have hprime (hp : Nat.Prime (reg s rn)) : fermatVerdict rn s = true :=
      List.all_eq_true.2 fun _ => witness_of_prime_passes hp hn
    refine ⟨hprime, fun _ => List.all_eq_true, fermatVerdict_eq_false_of_no_liar hn, fun hfail hp => ?_⟩
    cases hfail.symm.trans (hprime hp)
  · have hcop := coprime_of_witness_of_prime hp h2 ha
    exact ⟨hcop, fermatHolds_of_prime hp hcop⟩
  · let e : Entropy := { supplied := List.replicate s.trials.toNat (a - 2), spent := 0 }
    have hws : witnesses (reg s rn) s.trials.toNat e = List.replicate s.trials.toNat a := witnesses_replicate h2 ha _ _
    refine ⟨e, _, exec_fermat_ok (s := { s with entropy := e }) hn hodd, List.all_eq_true.2 fun b hb => ?_⟩
    change b ∈ witnesses (reg s rn) s.trials.toNat e at hb
    rw [hws] at hb
    cases List.eq_of_mem_replicate hb
    exact hliar

end Sys2Proof.Machine
end

section
/-! SUPPORT. PRIMEGEN: its loop in terms of the candidates that the source gives, the candidate written or the
exhaustion, and the laws of both (R150, R151, R206, R222). -/

namespace Sys2Proof.Machine

/-! ### One candidate -/

theorem candidateOf_pos (lo hi raw : Nat) : 0 < candidateOf lo hi raw := by
  have hfirst : 0 < firstOdd lo := by
    unfold firstOdd
    split <;> omega
  exact Nat.add_pos_left hfirst _

theorem candidateAt_range {lo hi : Nat} (hle : lo ≤ hi) (hodd : lo < hi ∨ lo % 2 = 1) (e : Entropy) :
    candidateAt lo hi e % 2 = 1 ∧ lo ≤ candidateAt lo hi e ∧ candidateAt lo hi e ≤ hi :=
  candidateOf_range hle hodd.symm _

theorem afterCandidate_eq (lo hi T : Nat) (e : Entropy) :
    afterCandidate lo hi T e = afterDraws (1 + candidateTrials lo hi T e) e := rfl

/-- The test of a candidate gives whether it passes, and leaves the source where the next candidate is drawn. -/
theorem fermat_candidate (lo hi T : Nat) (e : Entropy) :
    fermat (candidateAt lo hi e) T (afterDraws 1 e) = (candidatePasses lo hi T e, afterCandidate lo hi T e) := by
  rw [fermat_eq (n := candidateAt lo hi e) (candidateOf_pos lo hi _), afterCandidate_eq, afterDraws_add]
  rfl

theorem afterCandidate_of_passes {lo hi T : Nat} {e : Entropy} (h : candidatePasses lo hi T e = true) :
    afterCandidate lo hi T e = afterDraws (1 + T) e := by
  rw [afterCandidate_eq, candidateTrials_of_passes h]

theorem candidatePasses_eq_true_iff {lo hi T : Nat} {e : Entropy} : candidatePasses lo hi T e = true ↔
    ∀ a ∈ candidateWitnesses lo hi T e, fermatHolds (candidateAt lo hi e) a = true := List.all_eq_true

theorem candidatePasses_eq_false_iff {lo hi T : Nat} {e : Entropy} : candidatePasses lo hi T e = false ↔
    ∃ a ∈ candidateWitnesses lo hi T e, fermatHolds (candidateAt lo hi e) a = false := by
  simp [candidatePasses]

theorem candidatePasses_of_prime {lo hi : Nat} (T : Nat) {e : Entropy} (hp : Nat.Prime (candidateAt lo hi e))
    (h3 : 3 < candidateAt lo hi e) : candidatePasses lo hi T e = true :=
  candidatePasses_eq_true_iff.2 fun _ => witness_of_prime_passes hp h3

/-! ### The loop (R150) -/

theorem primegenLoop_succ (lo hi T L : Nat) (e : Entropy) :
    primegenLoop lo hi T (L + 1) e =
      if candidatePasses lo hi T e then (some (candidateAt lo hi e), afterCandidate lo hi T e)
      else primegenLoop lo hi T L (afterCandidate lo hi T e) := by
  have htest : fermat (drawCandidate lo hi e).1 T (drawCandidate lo hi e).2 = _ := fermat_candidate lo hi T e
  rw [primegenLoop, htest]
  rfl

/-- Candidates that fail are passed over. -/
theorem primegenLoop_of_failures {lo hi T k : Nat} {e : Entropy}
    (hfail : ∀ j, j < k → candidatePasses lo hi T (candidateStart lo hi T j e) = false) (L : Nat) :
    primegenLoop lo hi T (k + L) e = primegenLoop lo hi T L (candidateStart lo hi T k e) := by
  induction k generalizing L with
  | zero => rw [Nat.zero_add, candidateStart_zero]
  | succ k ih =>
    rw [Nat.add_assoc, Nat.add_comm 1 L, ih (fun j hj => hfail j (Nat.lt_succ_of_lt hj)), primegenLoop_succ,
      hfail k (Nat.lt_succ_self k), candidateStart_succ]
    rfl

theorem primegenLoop_found {lo hi T k L : Nat} {e : Entropy} (hk : k < L)
    (hfail : ∀ j, j < k → candidatePasses lo hi T (candidateStart lo hi T j e) = false)
    (hpass : candidatePasses lo hi T (candidateStart lo hi T k e) = true) :
    primegenLoop lo hi T L e =
      (some (candidateAt lo hi (candidateStart lo hi T k e)), afterDraws (1 + T) (candidateStart lo hi T k e)) := by
  obtain ⟨m, rfl⟩ := Nat.exists_eq_add_of_lt hk
  rw [Nat.add_assoc, primegenLoop_of_failures hfail, primegenLoop_succ, if_pos hpass, afterCandidate_of_passes hpass]

theorem primegenLoop_exhausted {lo hi T L : Nat} {e : Entropy}
    (hfail : ∀ j, j < L → candidatePasses lo hi T (candidateStart lo hi T j e) = false) :
    primegenLoop lo hi T L e = (none, candidateStart lo hi T L e) :=
  primegenLoop_of_failures hfail 0

/-! ### The command (R150, R206) -/

section Command
variable {rd rlo rhi : Reg} {s : State}

/-- The position at which the command draws candidate number `k`. -/
def primegenStart (rlo rhi : Reg) (s : State) (k : Nat) : Entropy :=
  candidateStart (reg s rlo) (reg s rhi) s.trials.toNat k s.entropy

/-- Candidate number `k` of the command passes its trials. -/
def primegenPasses (rlo rhi : Reg) (s : State) (k : Nat) : Bool :=
  candidatePasses (reg s rlo) (reg s rhi) s.trials.toNat (primegenStart rlo rhi s k)

/-- The state after candidate number `k` was written. -/
def primegenFound (rd rlo rhi : Reg) (s : State) (k : Nat) : State :=
  complete false (setReg rd (candidateAt (reg s rlo) (reg s rhi) (primegenStart rlo rhi s k))
    { s with entropy := afterDraws (1 + s.trials.toNat) (primegenStart rlo rhi s k) })

/-- The state after every candidate failed. -/
def primegenExhausted (rlo rhi : Reg) (s : State) : State :=
  raise .generationExhausted { s with entropy := primegenStart rlo rhi s s.retryLimit.toNat }

variable (h5 : 5 ≤ reg s rlo) (hle : reg s rlo ≤ reg s rhi) (hodd : reg s rlo < reg s rhi ∨ reg s rlo % 2 = 1)
include h5 hle hodd

theorem primegen_range_legal :
    ¬ (reg s rlo < 5 ∨ reg s rhi < reg s rlo ∨ (reg s rlo = reg s rhi ∧ reg s rlo % 2 = 0)) := by omega

theorem exec_primegen_found {k : Nat} (hk : k < s.retryLimit.toNat)
    (hfail : ∀ j, j < k → primegenPasses rlo rhi s j = false) (hpass : primegenPasses rlo rhi s k = true) :
    exec (.primegen rd rlo rhi) s = .next (primegenFound rd rlo rhi s k) := by
  have hloop := primegenLoop_found hk hfail hpass
  have hexec : exec (.primegen rd rlo rhi) s = _ :=
    execPrimegen_found (primegen_range_legal h5 hle hodd) (congrArg Prod.fst hloop)
  rw [hexec, hloop]
  rfl

theorem exec_primegen_exhausted (hfail : ∀ j, j < s.retryLimit.toNat → primegenPasses rlo rhi s j = false) :
    exec (.primegen rd rlo rhi) s = .next (primegenExhausted rlo rhi s) := by
  have hloop := primegenLoop_exhausted hfail
  have hexec : exec (.primegen rd rlo rhi) s = _ :=
    execPrimegen_exhausted (primegen_range_legal h5 hle hodd) (congrArg Prod.fst hloop)
  rw [hexec, hloop]
  rfl

/-- On a legal range the command writes the first candidate that passes, or each of `RETRY_LIMIT` candidates failed. -/
theorem exec_primegen_cases {t : State} (h : exec (.primegen rd rlo rhi) s = .next t) :
    (∃ k, k < s.retryLimit.toNat ∧ (∀ j, j < k → primegenPasses rlo rhi s j = false) ∧
      primegenPasses rlo rhi s k = true ∧ t = primegenFound rd rlo rhi s k) ∨
    ((∀ j, j < s.retryLimit.toNat → primegenPasses rlo rhi s j = false) ∧ t = primegenExhausted rlo rhi s) := by
  by_cases hex : ∃ k, k < s.retryLimit.toNat ∧ primegenPasses rlo rhi s k = true
  · obtain ⟨hk, hpass⟩ := Nat.find_spec hex
    have hfail (j : Nat) (hj : j < Nat.find hex) : primegenPasses rlo rhi s j = false :=
      Bool.eq_false_iff.2 fun hj' => Nat.find_min hex hj ⟨hj.trans hk, hj'⟩
    cases (exec_primegen_found h5 hle hodd hk hfail hpass).symm.trans h
    exact .inl ⟨_, hk, hfail, hpass, rfl⟩
  · have hfail (j : Nat) (hj : j < s.retryLimit.toNat) : primegenPasses rlo rhi s j = false :=
      Bool.eq_false_iff.2 fun hj' => hex ⟨j, hj, hj'⟩
    cases (exec_primegen_exhausted h5 hle hodd hfail).symm.trans h
    exact .inr ⟨hfail, rfl⟩

/-- On a range whose odd members are all prime each candidate passes (R151 law 3). -/
theorem primegenPasses_of_primes
    (hprime : ∀ c, c % 2 = 1 → reg s rlo ≤ c → c ≤ reg s rhi → Nat.Prime c) (k : Nat) :
    primegenPasses rlo rhi s k = true := by
  obtain ⟨hc, hlo, hhi⟩ := candidateAt_range hle hodd (primegenStart rlo rhi s k)
  exact candidatePasses_of_prime _ (hprime _ hc hlo hhi) (by omega)

end Command

theorem reg_primegenFound (rd rlo rhi : Reg) (s : State) (k : Nat) : reg (primegenFound rd rlo rhi s k) rd =
    candidateAt (reg s rlo) (reg s rhi) (primegenStart rlo rhi s k) :=
  (reg_setReg ..).trans (if_pos rfl)

/-- Settles O33: the loop passes over the candidates that fail and stops at the first that passes. -/
theorem primegenResult : Obligations.PrimegenResult := by
  refine ⟨fun rd rlo rhi s => ⟨fun h5 hle hodd => ⟨fun k => ?_, ?_⟩, execPrimegen_error⟩,
    fun c hop hbad => decodeWord_of_illegalByR96 ?_⟩
  · exact exec_primegen_found h5 hle hodd
  · exact exec_primegen_exhausted h5 hle hodd
  · unfold illegalByR96
    tauto

/-- Settles O34: candidate number 0 passes. -/
theorem primegenSucceedsOnPrimes : Obligations.PrimegenSucceedsOnPrimes := by
  intro rd rlo rhi s h5 hle hodd hlimit hprime
  obtain ⟨hc, hlo, hhi⟩ := candidateAt_range hle hodd (primegenStart rlo rhi s 0)
  exact ⟨_, _, hprime _ hc hlo hhi, hlo, hhi, exec_primegen_found h5 hle hodd (BitVec.toNat_pos_of_ne_zero hlimit)
    nofun (primegenPasses_of_primes h5 hle hodd hprime 0)⟩

/-! ### How many draws are taken (R151 law 2) -/

/-- Each candidate takes one draw of its own and those of its trials. -/
theorem candidateStart_eq_afterDraws (lo hi T k : Nat) (e : Entropy) : candidateStart lo hi T k e =
    afterDraws (k + ∑ j ∈ Finset.range k, candidateTrials lo hi T (candidateStart lo hi T j e)) e := by
  induction k with
  | zero => rfl
  | succ k ih =>
    rw [candidateStart_succ, afterCandidate_eq, Finset.sum_range_succ, Nat.add_add_add_comm,
      afterDraws_add _ (1 + _), ← ih]

theorem sum_candidateTrials_le {lo hi T k L : Nat} {e : Entropy} (hk : k ≤ L) :
    ∑ j ∈ Finset.range k, candidateTrials lo hi T (candidateStart lo hi T j e) ≤ L * T := by
  have hsum := Finset.sum_le_card_nsmul (Finset.range k)
    (fun j => candidateTrials lo hi T (candidateStart lo hi T j e)) T fun j _ => candidateTrials_le lo hi T _
  rw [Finset.card_range, smul_eq_mul] at hsum
  exact hsum.trans (Nat.mul_le_mul_right T hk)

/-! ### A source that exhausts the retries (R151 law 3) -/

/-- The least prime factor of an odd composite is a witness that fails, since it divides its own powers. -/
theorem exists_failing_witness {c : Nat} (hodd : c % 2 = 1) (h5 : 5 ≤ c) (hc : ¬ Nat.Prime c) :
    ∃ a, 2 ≤ a ∧ a ≤ c - 2 ∧ fermatHolds c a = false := by
  have hp : Nat.Prime c.minFac := Nat.minFac_prime (by omega)
  have hsq : c.minFac ^ 2 ≤ c := Nat.minFac_sq_le_self (by omega) hc
  refine ⟨c.minFac, hp.two_le, ?_, Bool.eq_false_iff.2 fun hholds => ?_⟩
  · have htwo := hp.two_le
    have hdouble : c.minFac * 2 ≤ c := (Nat.mul_le_mul_left _ htwo).trans (sq c.minFac ▸ hsq)
    omega
  · have hdvd : c.minFac ∣ c.minFac ^ (c - 1) % c :=
      (Nat.dvd_mod_iff c.minFac_dvd).2 (dvd_pow_self _ (by omega))
    rw [fermatHolds_eq_true_iff.1 hholds] at hdvd
    exact hp.one_lt.ne' (Nat.dvd_one.1 hdvd)

/-- The raw draws of a candidate and one witness, `L` times over. -/
def repeatedDraws (candidate witness : Nat) : Nat → List Nat
  | 0 => []
  | L + 1 => candidate :: witness :: repeatedDraws candidate witness L

/-- A candidate and a witness that fails it, drawn each time, give no prime. -/
theorem primegenLoop_repeatedDraws {lo hi T x y : Nat} (hT : 0 < T)
    (hfails : fermatHolds (candidateOf lo hi x) (witnessOf (candidateOf lo hi x) y) = false) (L spent : Nat) :
    (primegenLoop lo hi T L { supplied := repeatedDraws x y L, spent := spent }).1 = none := by
  obtain ⟨T, rfl⟩ := Nat.exists_eq_succ_of_ne_zero hT.ne'
  induction L generalizing spent with
  | zero => rfl
  | succ L ih =>
    have hfermat : fermat (candidateOf lo hi x) (T + 1) { supplied := y :: repeatedDraws x y L, spent := spent + 1 } =
        (false, { supplied := repeatedDraws x y L, spent := spent + 2 }) := by
      rw [fermat_succ, drawWitness_cons, fermatPasses_eq_fermatHolds (candidateOf_pos lo hi x), hfails]
      rfl
    have htest := fermat_candidate lo hi (T + 1) { supplied := repeatedDraws x y (L + 1), spent := spent }
    obtain ⟨hfail, hafter⟩ := Prod.mk.inj (htest.symm.trans hfermat)
    rw [primegenLoop_succ, hfail, hafter]
    exact ih _

theorem exists_exhausting_source {rd rlo rhi : Reg} {s : State} (h5 : 5 ≤ reg s rlo) (hle : reg s rlo ≤ reg s rhi)
    (hodd : reg s rlo < reg s rhi ∨ reg s rlo % 2 = 1) (htrials : s.trials ≠ 0#16) {c : Nat} (hc : c % 2 = 1)
    (hlo : reg s rlo ≤ c) (hhi : c ≤ reg s rhi) (hcomp : ¬ Nat.Prime c) :
    ∃ (e : Entropy) (t : State), exec (.primegen rd rlo rhi) { s with entropy := e } = .next t ∧ t.ecode = 4#4 := by
  obtain ⟨a, h2, ha, hfails⟩ := exists_failing_witness hc (h5.trans hlo) hcomp
  let e : Entropy :=
    { supplied := repeatedDraws ((c - firstOdd (reg s rlo)) / 2) (a - 2) s.retryLimit.toNat, spent := 0 }
  have hloop : (primegenLoop (reg s rlo) (reg s rhi) s.trials.toNat s.retryLimit.toNat e).1 = none :=
    primegenLoop_repeatedDraws (BitVec.toNat_pos_of_ne_zero htrials)
      (by rwa [candidateOf_surjective hc hlo hhi, witnessOf_surjective h2 ha]) _ _
  exact ⟨e, _, execPrimegen_exhausted (s := { s with entropy := e }) (primegen_range_legal h5 hle hodd) hloop, rfl⟩

/-- Settles O35: the two ends of the loop, the sum of the draws, and a source that draws a composite each time. -/
theorem primegenLaws : Obligations.PrimegenLaws := by
  intro rd rlo rhi s lo hi T L start failsAt h5 hle hodd
  have hfails (k : Nat) (h : primegenPasses rlo rhi s k = false) : failsAt k := candidatePasses_eq_false_iff.1 h
  refine ⟨fun t h => ?_, fun htrials ⟨c, hc, hlo, hhi, hcomp⟩ =>
    exists_exhausting_source h5 hle hodd htrials hc hlo hhi hcomp⟩
  rcases exec_primegen_cases h5 hle hodd h with ⟨k, hk, hfail, hpass, rfl⟩ | ⟨hfail, rfl⟩
  · have hnext : start (k + 1) = afterDraws (1 + T) (start k) := afterCandidate_of_passes hpass
    have hreg := reg_primegenFound rd rlo rhi s k
    obtain ⟨hc, hlo, hhi⟩ := candidateAt_range hle hodd (start k)
    refine ⟨fun _ => ⟨k, hk, fun j hj => hfails j (hfail j hj), hreg, ?_⟩, nofun, ?_, fun _ _ => nofun⟩
    · rw [hreg]
      exact ⟨hc, hlo, hhi, candidatePasses_eq_true_iff.1 hpass, rfl⟩
    · exact ⟨k + 1, hk, hnext.symm, sum_candidateTrials_le hk, hnext.symm.trans (candidateStart_eq_afterDraws ..)⟩
  · refine ⟨nofun, fun _ => ⟨rfl, fun j hj => hfails j (hfail j hj), rfl⟩, ?_, fun hprime hlimit => ?_⟩
    · exact ⟨L, Nat.le_refl L, rfl, sum_candidateTrials_le (Nat.le_refl L), candidateStart_eq_afterDraws ..⟩
    · cases (hfail 0 (BitVec.toNat_pos_of_ne_zero hlimit)).symm.trans (primegenPasses_of_primes h5 hle hodd hprime 0)

end Sys2Proof.Machine
end

section
/-! SUPPORT. The block codec: ENCODE's integer as a sum and as the digits it is made of, the bytes that DECODE's loop gives,
and how the two invert each other (R170, R171, R175, R176, R178). -/

namespace Sys2Proof.Machine

/-! ### ENCODE (R170, R171) -/

theorem encodeBlock_succ (s : State) (len : Nat) :
    encodeBlock s (len + 1) = encodeBlock s len + (bufByte s len).toNat * 256 ^ len := rfl

theorem encodeBlock_eq_sum (s : State) (len : Nat) :
    encodeBlock s len = ∑ j ∈ Finset.range len, (bufByte s j).toNat * 256 ^ j := by
  induction len with
  | zero => rfl
  | succ len ih => rw [encodeBlock_succ, Finset.sum_range_succ, ih]

theorem encodeBlock_lt_two_pow_width {s : State} (hlen : s.blen.toNat ≤ s.build.bmax) :
    encodeBlock s s.blen.toNat < 2 ^ s.build.width := by
  rw [two_pow_width]
  exact Nat.lt_of_lt_of_le (encodeBlock_lt s _) (Nat.pow_le_pow_right (by decide) hlen)

theorem exec_encode_ok {rd : Reg} {s : State} (hlen : s.blen.toNat ≤ s.build.bmax)
    (hbytes : ∀ j, j < s.blen.toNat → bufByte s j ≠ 0) :
    exec (.encode rd) s = .next (complete false (setReg rd (encodeBlock s s.blen.toNat) s)) := by
  refine execEncode_ok hlen ?_
  rw [← Bool.not_eq_true, blockHasZero_iff]
  exact fun ⟨j, hj, hzero⟩ => hbytes j hj hzero

theorem exec_encode_error {rd : Reg} {s : State}
    (h : s.build.bmax < s.blen.toNat ∨ ∃ j, j < s.blen.toNat ∧ bufByte s j = 0) :
    exec (.encode rd) s = .next (raise .invalidInput s) :=
  h.elim execEncode_tooLong fun hzero => execEncode_zeroByte ((blockHasZero_iff s _).2 hzero)

/-- Settles O37: the block's length and its zero bytes pick between the two outcomes. -/
theorem encodeResult : Obligations.EncodeResult := by
  refine ⟨fun rd s => ⟨fun hlen hbytes => ?_, exec_encode_error⟩, fun c hop hbad => decodeWord_of_illegalByR96 ?_⟩
  · rw [← encodeBlock_eq_sum]
    exact ⟨exec_encode_ok hlen hbytes, encodeBlock_lt_two_pow_width hlen⟩
  · by_cases hrsv : c.extractLsb' 0 8 = 0#8
    · exact .inr (.inr (.inr (.inr (.inr (.inr (.inl ⟨hop, by simpa [hrsv] using hbad⟩))))))
    · exact .inr (.inr (.inl hrsv))

/-! ### The bytes that the decoding loop gives (R176) -/

/-- The source's formula for byte `i` of a value is its digit `i` in base 256. -/
theorem sourceFormula_eq_digit (v i : Nat) : (v % 256 ^ (i + 1) - v % 256 ^ i) / 256 ^ i = v / 256 ^ i % 256 := by
  rw [Nat.mod_pow_succ, Nat.add_sub_cancel_left, Nat.mul_div_cancel_left _ (Nat.pow_pos (by decide))]

theorem byteOf_eq_zero_iff {v i : Nat} : byteOf v i = 0 ↔ v / 256 ^ i % 256 = 0 := by
  rw [← byteOf_toNat, ← BitVec.toNat_inj]
  rfl

theorem byteOf_eq_zero_of_lt {v n i : Nat} (hv : v < 256 ^ n) (hi : n ≤ i) : byteOf v i = 0 := by
  rw [byteOf_eq_zero_iff, Nat.div_eq_of_lt (Nat.lt_of_lt_of_le hv (Nat.pow_le_pow_right (by decide) hi))]

theorem decodeLoop_succ (v fuel i : Nat) :
    decodeLoop v (fuel + 1) i = if byteOf v i = 0 then [] else byteOf v i :: decodeLoop v fuel (i + 1) := by
  rw [← extractedByte_eq_byteOf]
  rfl

theorem decodeLoop_of_zero {v i : Nat} (fuel : Nat) (h : byteOf v i = 0) : decodeLoop v (fuel + 1) i = [] :=
  (decodeLoop_succ v fuel i).trans (if_pos h)

theorem decodeLoop_of_nonzero {v i : Nat} (fuel : Nat) (h : byteOf v i ≠ 0) :
    decodeLoop v (fuel + 1) i = byteOf v i :: decodeLoop v fuel (i + 1) :=
  (decodeLoop_succ v fuel i).trans (if_neg h)

theorem decodeLoop_length_le (v fuel i : Nat) : (decodeLoop v fuel i).length ≤ fuel := by
  induction fuel generalizing i with
  | zero => exact Nat.le_refl 0
  | succ fuel ih =>
    by_cases h : byteOf v i = 0
    · simp [decodeLoop_of_zero fuel h]
    · simpa [decodeLoop_of_nonzero fuel h] using ih (i + 1)

/-- Output byte `j` of the loop from index `i` is byte `i + j` of the value, and is not 0. -/
theorem decodeLoop_getD {v fuel i j : Nat} (hj : j < (decodeLoop v fuel i).length) :
    (decodeLoop v fuel i).getD j 0 = byteOf v (i + j) ∧ byteOf v (i + j) ≠ 0 := by
  induction fuel generalizing i j with
  | zero => cases hj
  | succ fuel ih =>
    by_cases h : byteOf v i = 0
    · simp [decodeLoop_of_zero fuel h] at hj
    · rw [decodeLoop_of_nonzero fuel h] at hj ⊢
      cases j with
      | zero => exact ⟨rfl, h⟩
      | succ j =>
        rw [show i + (j + 1) = i + 1 + j by omega]
        exact ih (Nat.lt_of_succ_lt_succ hj)

/-- What ends the loop before its fuel is a zero byte. -/
theorem byteOf_decodeLoop_length {v fuel i : Nat} (h : (decodeLoop v fuel i).length < fuel) :
    byteOf v (i + (decodeLoop v fuel i).length) = 0 := by
  induction fuel generalizing i with
  | zero => cases h
  | succ fuel ih =>
    by_cases hz : byteOf v i = 0
    · simpa [decodeLoop_of_zero fuel hz] using hz
    · rw [decodeLoop_of_nonzero fuel hz] at h ⊢
      rw [List.length_cons, show ∀ n, i + (n + 1) = i + 1 + n by omega]
      exact ih (Nat.lt_of_succ_lt_succ h)

/-! ### DECODE (R175) -/

/-- The number of bytes that DECODE of `rs` gives. -/
def decodedLength (rs : Reg) (s : State) : Nat := (decodeValue s.build.bmax (reg s rs)).length

/-- The state that DECODE of `rs` leaves. -/
def decoded (rs : Reg) (s : State) : State :=
  complete false
    { s with
      buf := Memory.ofBytes
        (fun j => if j < decodedLength rs s then (decodeValue s.build.bmax (reg s rs)).getD j 0 else 0) s.build.bmax
      blen := BitVec.ofNat 32 (decodedLength rs s) }

section Decoded
variable (rs : Reg) (s : State)

theorem exec_decode : exec (.decode rs) s = .next (decoded rs s) := rfl

theorem decodedLength_le : decodedLength rs s ≤ s.build.bmax := decodeLoop_length_le ..

theorem decoded_blen_toNat : (decoded rs s).blen.toNat = decodedLength rs s := by
  have hle := decodedLength_le rs s
  have hbmax := bmax_eq s.build
  have hwords := wwords_range s.build
  exact (BitVec.toNat_ofNat ..).trans (Nat.mod_eq_of_lt (by omega))

theorem bufByte_decoded (j : Nat) :
    bufByte (decoded rs s) j = if j < decodedLength rs s then byteOf (reg s rs) j else 0 := by
  refine (read_ofBytes ..).trans ?_
  by_cases hj : j < decodedLength rs s
  · obtain ⟨hout, -⟩ := decodeLoop_getD hj
    rw [if_pos (Nat.lt_of_lt_of_le hj (decodedLength_le rs s)), if_pos hj, if_pos hj]
    rwa [Nat.zero_add] at hout
  · simp only [if_neg hj, ite_self]

variable {rs s}

theorem byteOf_ne_zero_of_lt_decodedLength {j : Nat} (hj : j < decodedLength rs s) : byteOf (reg s rs) j ≠ 0 := by
  obtain ⟨-, hne⟩ := decodeLoop_getD hj
  rwa [Nat.zero_add] at hne

/-- The output ends at a zero byte, be it the first one above all that a register holds. -/
theorem byteOf_decodedLength (hv : reg s rs < 2 ^ s.build.width) : byteOf (reg s rs) (decodedLength rs s) = 0 := by
  rw [two_pow_width] at hv
  rcases Nat.lt_or_ge (decodedLength rs s) s.build.bmax with hlt | hge
  · have hzero := byteOf_decodeLoop_length hlt
    rwa [Nat.zero_add] at hzero
  · exact byteOf_eq_zero_of_lt hv hge

/-- The output's length is the index of the value's lowest zero byte. -/
theorem decodedLength_eq_of_lowest_zero {n : Nat} (hv : reg s rs < 2 ^ s.build.width)
    (hbelow : ∀ j, j < n → byteOf (reg s rs) j ≠ 0) (hzero : byteOf (reg s rs) n = 0) : decodedLength rs s = n := by
  rcases Nat.lt_trichotomy (decodedLength rs s) n with hlt | heq | hgt
  · exact absurd (byteOf_decodedLength hv) (hbelow _ hlt)
  · exact heq
  · exact absurd hzero (byteOf_ne_zero_of_lt_decodedLength hgt)

end Decoded

/-- Settles O38: the loop's bytes stand below the length it stops at, and 0 from there on. -/
theorem decodeResult : Obligations.DecodeResult := by
  refine ⟨fun rs s hv => ⟨decoded rs s, exec_decode rs s, rfl, ?_, fun j hj => ?_, ?_, fun j hj => ?_⟩,
    fun v i => ?_, fun c hop hbad => decodeWord_of_illegalByR96 ?_⟩
  · rw [decoded_blen_toNat]
    exact decodedLength_le rs s
  · rw [decoded_blen_toNat] at hj
    rw [bufByte_decoded, if_pos hj, sourceFormula_eq_digit]
    exact ⟨byteOf_toNat _ _, byteOf_ne_zero_of_lt_decodedLength hj⟩
  · rw [decoded_blen_toNat, sourceFormula_eq_digit]
    exact byteOf_eq_zero_iff.1 (byteOf_decodedLength hv)
  · rw [decoded_blen_toNat] at hj
    rw [bufByte_decoded, if_neg (Nat.not_lt.2 hj)]
    rfl
  · rw [sourceFormula_eq_digit, Nat.pow_mul]
  · by_cases hrsv : c.extractLsb' 0 8 = 0#8
    · exact .inr (.inr (.inr (.inr (.inr (.inr (.inr ⟨hop, by simpa [hrsv] using hbad⟩))))))
    · exact .inr (.inr (.inl hrsv))

/-! ### The round trips (R178) -/

/-- A block that holds a value's low bytes encodes as those bytes of the value. -/
theorem encodeBlock_eq_mod {s : State} {v n : Nat} (h : ∀ j, j < n → bufByte s j = byteOf v j) :
    encodeBlock s n = v % 256 ^ n := by
  induction n with
  | zero => exact (Nat.mod_one v).symm
  | succ n ih =>
    rw [encodeBlock_succ, ih fun j hj => h j (Nat.lt_succ_of_lt hj), h n (Nat.lt_succ_self n), byteOf_toNat,
      Nat.mod_pow_succ, Nat.mul_comm]

/-- A value whose digits from index `n` on are all 0 is below `256 ^ n`. -/
theorem mod_eq_self_of_high_digits_zero {v n : Nat} (h : ∀ j, n ≤ j → v / 256 ^ j % 256 = 0) : v % 256 ^ n = v := by
  have hmod : ∀ k, v % 256 ^ (n + k) = v % 256 ^ n := fun k => by
    induction k with
    | zero => rfl
    | succ k ih => rw [← Nat.add_assoc, Nat.mod_pow_succ, h _ (Nat.le_add_right n k), Nat.mul_zero, Nat.add_zero, ih]
  have hlarge : v < 256 ^ (n + v) :=
    calc v < 256 ^ v := Nat.lt_pow_self (by decide)
      _ ≤ 256 ^ (n + v) := Nat.pow_le_pow_right (by decide) (Nat.le_add_left v n)
  rw [← hmod v, Nat.mod_eq_of_lt hlarge]

/-- Cutting a value at its lowest zero digit loses nothing exactly when no digit above that one is nonzero (R178 law 2). -/
theorem mod_lowest_zero_eq_self_iff {v n : Nat} (hbelow : ∀ j, j < n → v / 256 ^ j % 256 ≠ 0)
    (hzero : v / 256 ^ n % 256 = 0) :
    v % 256 ^ n = v ↔ ∀ i j, i < j → v / 256 ^ j % 256 ≠ 0 → v / 256 ^ i % 256 ≠ 0 := by
  constructor
  · intro hv i j hij hj
    have hlt : v < 256 ^ n := hv ▸ Nat.mod_lt v (Nat.pow_pos (by decide))
    have hjn : j < n := Nat.lt_of_not_le fun hnj => hj (byteOf_eq_zero_iff.1 (byteOf_eq_zero_of_lt hlt hnj))
    exact hbelow i (Nat.lt_trans hij hjn)
  · intro hgap
    refine mod_eq_self_of_high_digits_zero fun j hj => by_contra fun hne => ?_
    rcases Nat.eq_or_lt_of_le hj with rfl | hlt
    · exact hne hzero
    · exact hgap n j hlt hne hzero

/-- DECODE after ENCODE of the same register gives the block back (R178 law 1). -/
theorem decoded_of_encoded {r : Reg} {s t : State} (hlen : s.blen.toNat ≤ s.build.bmax)
    (hbytes : ∀ j, j < s.blen.toNat → bufByte s j ≠ 0) (hb : t.build = s.build)
    (hr : reg t r = encodeBlock s s.blen.toNat) :
    (decoded r t).blen = s.blen ∧ ∀ j, j < s.blen.toNat → bufByte (decoded r t) j = bufByte s j := by
  have hbyte : ∀ j, j < s.blen.toNat → byteOf (reg t r) j = bufByte s j := fun j hj => by
    rw [hr, byteOf_encodeBlock s hj]
  have hlength : decodedLength r t = s.blen.toNat := by
    refine decodedLength_eq_of_lowest_zero ?_ (fun j hj => hbyte j hj ▸ hbytes j hj) ?_
    · rw [hr, hb]
      exact encodeBlock_lt_two_pow_width hlen
    · rw [hr]
      exact byteOf_eq_zero_of_lt (encodeBlock_lt s _) (Nat.le_refl _)
  refine ⟨BitVec.eq_of_toNat_eq ((decoded_blen_toNat r t).trans hlength), fun j hj => ?_⟩
  rw [bufByte_decoded, hlength, if_pos hj, hbyte j hj]

theorem encodeBlock_decoded (rs : Reg) (s : State) :
    encodeBlock (decoded rs s) (decodedLength rs s) = reg s rs % 256 ^ decodedLength rs s :=
  encodeBlock_eq_mod fun j hj => (bufByte_decoded rs s j).trans (if_pos hj)

/-- ENCODE accepts every block that DECODE leaves. -/
theorem exec_encode_decoded (rs rd : Reg) (s : State) :
    exec (.encode rd) (decoded rs s) =
      .next (complete false (setReg rd (reg s rs % 256 ^ decodedLength rs s) (decoded rs s))) := by
  have hlen := decoded_blen_toNat rs s
  rw [exec_encode_ok, hlen, encodeBlock_decoded]
  · rw [hlen]
    exact decodedLength_le rs s
  · intro j hj
    rw [hlen] at hj
    rw [bufByte_decoded, if_pos hj]
    exact byteOf_ne_zero_of_lt_decodedLength hj

/-- Settles O39: the integer's lowest zero byte is the block's end, and the block is the value's bytes below it. -/
theorem codecRoundTrips : Obligations.CodecRoundTrips := by
  refine ⟨fun r s hlen hbytes => ?_, fun rs rd s hv => ?_⟩
  · exact ⟨_, _, exec_encode_ok hlen hbytes, exec_decode r _,
      decoded_of_encoded hlen hbytes rfl ((reg_setReg ..).trans (if_pos rfl))⟩
  · have hreg : reg (complete false (setReg rd (reg s rs % 256 ^ decodedLength rs s) (decoded rs s))) rd =
        reg s rs % 256 ^ decodedLength rs s := (reg_setReg ..).trans (if_pos rfl)
    have hbelow : ∀ j, j < decodedLength rs s → reg s rs / 256 ^ j % 256 ≠ 0 := fun j hj =>
      byteOf_eq_zero_iff.not.1 (byteOf_ne_zero_of_lt_decodedLength hj)
    have hzero := byteOf_eq_zero_iff.1 (byteOf_decodedLength hv)
    refine ⟨_, _, exec_decode rs s, exec_encode_decoded rs rd s, ?_⟩
    rw [decoded_blen_toNat, hreg]
    exact ⟨rfl, hbelow, hzero, mod_lowest_zero_eq_self_iff hbelow hzero⟩

end Sys2Proof.Machine
end

section
/-! SUPPORT. How a command and a step end (R205 to R209), what a command does not read (R220), the draws that an entropy
source can give (R222), and the interrupt level (R210, R211). -/

namespace Sys2Proof.Machine

/-! ### The idle core (R235) -/

/-- Settles O11: an engine turn of an idle core answers the state it is given. -/
theorem idleCoreKeepsItsState : Obligations.IdleCoreKeepsItsState := fun _ hb =>
  ⟨fun hs => (step_nil hs).trans (engineTurn_idle hb), fun _ hs => (step_engine hs).trans (engineTurn_idle hb)⟩

/-! ### What a command does not read (R30, R220) -/

/-- The value of a block depends on BUF alone (R171). -/
theorem encodeBlock_congr {s t : State} (h : t.buf = s.buf) (len : Nat) : encodeBlock t len = encodeBlock s len := by
  induction len with
  | zero => rfl
  | succ len ih => rw [encodeBlock_succ, encodeBlock_succ, ih, bufByte_congr h]

/-- A command that draws nothing answers a state, and neither CMD nor the entropy source matters to it. -/
theorem exec_ignores_cmd_and_entropy {i : Instr} (hf : ∀ rn, i ≠ .fermat rn)
    (hp : ∀ rd rlo rhi, i ≠ .primegen rd rlo rhi) (s : State) :
    ∃ t, exec i s = .next t ∧ t.entropy = s.entropy ∧
      ∀ c e, exec i { s with cmd := c, entropy := e } = .next { t with cmd := c, entropy := e } := by
  cases i with
  | modmul rd ra rb rm =>
    by_cases hm : reg s rm = 0
    · exact ⟨_, execModmul_error hm, rfl, fun _ _ => execModmul_error hm⟩
    · exact ⟨_, execModmul_ok hm, rfl, fun _ _ => execModmul_ok hm⟩
  | modexp rd rbase rexp rmod =>
    by_cases hm : reg s rmod = 0
    · exact ⟨_, execModexp_error hm, rfl, fun _ _ => execModexp_error hm⟩
    · exact ⟨_, execModexp_ok hm, rfl, fun _ _ => execModexp_ok hm⟩
  | extgcd rinv rgcd ra rb =>
    by_cases hd : rinv = rgcd
    · exact ⟨_, execExtgcd_sameDestinations hd, rfl, fun _ _ => execExtgcd_sameDestinations hd⟩
    · by_cases ha : reg s ra = 0
      · exact ⟨_, execExtgcd_error hd ha, rfl, fun _ _ => execExtgcd_error hd ha⟩
      · exact ⟨_, execExtgcd_ok hd ha, rfl, fun _ _ => execExtgcd_ok hd ha⟩
  | fermat rn => exact absurd rfl (hf rn)
  | primegen rd rlo rhi => exact absurd rfl (hp rd rlo rhi)
  | encode rd =>
    rcases Nat.lt_or_ge s.build.bmax s.blen.toNat with hl | hl
    · exact ⟨_, execEncode_tooLong hl, rfl, fun _ _ => execEncode_tooLong hl⟩
    · cases hz : blockHasZero s s.blen.toNat with
      | true => exact ⟨_, execEncode_zeroByte hz, rfl, fun _ _ => execEncode_zeroByte hz⟩
      | false =>
        refine ⟨_, execEncode_ok hl hz, rfl, fun c e => ?_⟩
        rw [← encodeBlock_congr (s := s) (t := { s with cmd := c, entropy := e }) rfl]
        exact execEncode_ok hl hz
  | decode rs => exact ⟨_, rfl, rfl, fun _ _ => rfl⟩

/-- Settles O47: the case in which CMD holds what it held. -/
theorem otherCommandsIgnoreTheEntropySource : Obligations.OtherCommandsIgnoreTheEntropySource := by
  intro i s e hf hp
  obtain ⟨t, h, hent, hother⟩ := exec_ignores_cmd_and_entropy hf hp s
  obtain ⟨-, -, hcmd, -⟩ := exec_controls h
  exact ⟨t, h, hent, by simpa [hcmd] using hother s.cmd e⟩

/-- Every command answers a state, and CMD, which the engine has decoded already, does not matter to it. -/
theorem exec_ignores_cmd (i : Instr) (s : State) :
    ∃ t, exec i s = .next t ∧ ∀ c, exec i { s with cmd := c } = .next { t with cmd := c } := by
  cases i with
  | fermat rn =>
    by_cases hn : reg s rn ≤ 3 ∨ reg s rn % 2 = 0
    · exact ⟨_, execFermat_error hn, fun _ => execFermat_error hn⟩
    · exact ⟨_, execFermat_ok hn, fun _ => execFermat_ok hn⟩
  | primegen rd rlo rhi =>
    by_cases hr : reg s rlo < 5 ∨ reg s rhi < reg s rlo ∨ (reg s rlo = reg s rhi ∧ reg s rlo % 2 = 0)
    · exact ⟨_, execPrimegen_error hr, fun _ => execPrimegen_error hr⟩
    · cases hc : (primegenLoop (reg s rlo) (reg s rhi) s.trials.toNat s.retryLimit.toNat s.entropy).1 with
      | none => exact ⟨_, execPrimegen_exhausted hr hc, fun _ => execPrimegen_exhausted hr hc⟩
      | some p => exact ⟨_, execPrimegen_found hr hc, fun _ => execPrimegen_found hr hc⟩
  | modmul | modexp | extgcd | encode | decode =>
    refine (exec_ignores_cmd_and_entropy (by nofun) (by nofun) s).imp fun t ⟨h, hent, hother⟩ => ⟨h, fun c => ?_⟩
    exact hent ▸ hother c s.entropy

/-! ### Every step answers (R207, R209, R213) -/

theorem exec_answers (i : Instr) (s : State) : ∃ t, exec i s = .next t :=
  (exec_ignores_cmd i s).imp fun _ h => h.1

theorem engineTurn_answers (s : State) : ∃ t, engineTurn s = .next t := by
  cases hb : s.busy with
  | false => exact ⟨s, engineTurn_idle hb⟩
  | true =>
    cases hd : decodeWord s.cmd with
    | command i => exact engineTurn_command hb hd ▸ exec_answers i s
    | illegal why => exact ⟨_, engineTurn_illegal hb hd⟩

/-- Settles O12: a reset and a host access answer outright, and so does the engine's turn. -/
theorem everyStepAnswersANextState : Obligations.EveryStepAnswersANextState := by
  intro s
  cases hs : s.schedule with
  | nil => exact step_nil hs ▸ engineTurn_answers s
  | cons e rest =>
    rw [step_cons hs]
    cases e with
    | engine => exact engineTurn_answers _
    | read | write | hardReset => exact ⟨_, rfl⟩

/-! ### How a command ends (R200, R205, R208) -/

theorem errorCode_range (e : ErrorCause) : 1 ≤ (errorCode e).toNat ∧ (errorCode e).toNat ≤ 4 := by
  cases e <;> decide

/-- Settles O45: of the two ways a command ends, only `raise` sets ERR. -/
theorem errorCompletionIsPrecise : Obligations.ErrorCompletionIsPrecise := by
  intro i s t h herr
  rcases exec_cases h with ⟨e, _, rfl⟩ | ⟨_, _, _, _, _, rfl⟩
  · exact ⟨rfl, errorCode_range e⟩
  · cases herr

theorem exec_flags {i : Instr} {s t : State} (h : exec i s = .next t) :
    t.busy = false ∧ t.done = true ∧ t.flagsConsistent := by
  rcases exec_cases h with ⟨_, _, rfl⟩ | ⟨_, _, _, _, _, rfl⟩
  · exact ⟨rfl, rfl, raise_flagsConsistent _ _⟩
  · exact ⟨rfl, rfl, complete_flagsConsistent _ _⟩

/-- The one ill-formed command is an EXTGCD with equal destinations (R96 item 4). -/
theorem exec_illFormed {i : Instr} (s : State) (hw : i.wellFormed = false) :
    exec i s = .next (raise .illegalCommand s) := by
  cases i with
  | extgcd rinv rgcd ra rb => exact execExtgcd_sameDestinations (by simpa [Instr.wellFormed] using hw)
  | modmul | modexp | fermat | primegen | encode | decode => cases hw

/-- The result is the one that the command has from its own word in CMD, and there STATUS speaks of that word. -/
theorem exec_wellFormed_status {i : Instr} {s t : State} (hw : i.wellFormed = true) (h : exec i s = .next t) :
    (t.prime = true → ∃ rn, i = .fermat rn) ∧ t.ecode ≠ 1#4 ∧
    (t.ecode = 2#4 → (∀ rd, i ≠ .encode rd) ∧ ∀ rs, i ≠ .decode rs) ∧
    (t.ecode = 3#4 → ∃ rd, i = .encode rd) ∧ (t.ecode = 4#4 → ∃ rd rlo rhi, i = .primegen rd rlo rhi) := by
  have hd : decodeWord (encodeWord i) = .command i := decodeInvertsEncode i hw
  obtain ⟨t', h', hcmd⟩ := exec_ignores_cmd i s
  cases h'.symm.trans h
  have hstatus := exec_statusMatchesCommand hd (hcmd (encodeWord i))
  simpa [State.statusMatchesCommand, hd] using hstatus

/-- Settles O46: the flags hold of every completion, and the codes are those of the command's own word. -/
theorem completionFlagsAndErrorCodes : Obligations.CompletionFlagsAndErrorCodes := by
  intro i s t h
  cases hw : i.wellFormed with
  | false =>
    cases (exec_illFormed s hw).symm.trans h
    simp [errorCode]
  | true =>
    obtain ⟨hbusy, hdone, -, herr, hprime, hcode⟩ := exec_flags h
    obtain ⟨hverdict, hlegal, hcodes⟩ := exec_wellFormed_status hw h
    exact ⟨hbusy, hdone, herr, fun hp => ⟨hprime hp, hverdict hp⟩, hcode, ⟨fun h1 => absurd h1 hlegal, nofun⟩, hcodes⟩

/-! ### The draws that an entropy source can give (R222) -/

theorem afterDraws_supplied (k spent : Nat) {raws : List Nat} (hk : k ≤ raws.length) :
    afterDraws k { supplied := raws, spent := spent } = { supplied := raws.drop k, spent := spent + k } := by
  induction k generalizing raws spent with
  | zero => rfl
  | succ k ih =>
    cases raws with
    | nil => cases hk
    | cons raw rest =>
      rw [afterDraws, drawRaw_cons, ih _ (Nat.le_of_succ_le_succ hk), List.drop_succ_cons, Nat.add_assoc,
        Nat.add_comm 1]

/-- A raw draw that gives this value of the draw's range. -/
def Draw.raw : Draw → Nat → Nat
  | .witness _, a => a - 2
  | .candidate lo _, c => (c - firstOdd lo) / 2

theorem Draw.value_raw_cons {d : Draw} {v : Nat} (h : d.admits v) (rest : List Nat) (spent : Nat) :
    d.value { supplied := d.raw v :: rest, spent := spent } = v := by
  cases d with
  | witness n =>
    obtain ⟨h2, hn⟩ := h
    exact witnessOf_surjective h2 hn
  | candidate lo hi =>
    obtain ⟨hodd, hlo, hhi⟩ := h
    exact candidateOf_surjective hodd hlo hhi

/-- The source with the raw draws of these values ready, in order. -/
def sourceOf (ds : List (Draw × Nat)) : Entropy := { supplied := ds.map fun d => d.1.raw d.2, spent := 0 }

theorem value_sourceOf {ds : List (Draw × Nat)} (hds : ∀ d ∈ ds, d.1.admits d.2) {k : Nat} (hk : k < ds.length) :
    ds[k].1.value (afterDraws k (sourceOf ds)) = ds[k].2 := by
  rw [sourceOf, afterDraws_supplied k 0 (by simpa using hk.le), List.drop_eq_getElem_cons (by simpa using hk),
    List.getElem_map]
  exact Draw.value_raw_cons (hds _ (List.getElem_mem hk)) _ _

theorem witnesses_getElem {n m k : Nat} {e : Entropy} (hk : k < (witnesses n m e).length) :
    (witnesses n m e)[k] = (Draw.witness n).value (afterDraws k e) := by
  induction m generalizing k e with
  | zero => cases hk
  | succ m ih =>
    cases k with
    | zero => rfl
    | succ k => exact ih (Nat.lt_of_succ_lt_succ hk)

/-- Settles O36: each value in range is that of some raw draw, and the source can hold those raw draws in order. -/
theorem drawsAreFreeWithinTheirRange : Obligations.DrawsAreFreeWithinTheirRange := by
  refine ⟨fun n e hn => witnessOf_range (by omega) _, fun lo hi e hle hodd => candidateOf_range hle hodd.symm _,
    fun ds hds => ⟨sourceOf ds, fun k hk => value_sourceOf hds hk⟩, fun n ws hws => ?_⟩
  have hds : ∀ d ∈ ws.map fun a => (Draw.witness n, a), d.1.admits d.2 := by simpa [Draw.admits] using hws
  refine ⟨sourceOf (ws.map fun a => (.witness n, a)), List.ext_getElem (witnesses_length ..) fun k hk hlen => ?_⟩
  have hvalue := value_sourceOf hds (k := k) (by simpa using hlen)
  rw [List.getElem_map] at hvalue
  exact (witnesses_getElem hk).trans hvalue

/-! ### The interrupt level (R210, R211) -/

theorem irq_eq_false_of_done {s : State} (h : s.done = false) : irq s = false := by simp [irq, h]

theorem irq_eq_false_of_ie {s : State} (h : s.ie = false) : irq s = false := by simp [irq, h]

theorem irq_resetState (s : State) : irq (resetState s) = false := rfl

/-- Settles O26: a level falls with IE or with DONE, and each write clears one of the two or sets IE. -/
theorem interruptClearsAndRises : Obligations.InterruptClearsAndRises := by
  intro s v
  rw [hostWrite_status, hostWrite_ctrl]
  refine ⟨rfl, fun hv => irq_eq_false_of_done (by simp [hv]), fun hb => ?_, fun hv => ?_, fun hv => ?_,
    irq_resetState s, fun hrst hie hdone => ?_⟩
  · rw [hostWrite_idle (targetOf_cmd _) hb]
    exact irq_eq_false_of_done (startCommand_done s v)
  · cases hrst : v.getLsbD 31 with
    | true => rw [writeCtrl_reset s hrst, irq_resetState]
    | false =>
      rw [writeCtrl_enable s hrst]
      exact irq_eq_false_of_ie hv
  · rw [writeCtrl_reset s hv, irq_resetState]
  · rw [writeCtrl_enable s hrst, irq, hie, hdone, Bool.and_self]

end Sys2Proof.Machine
end

section
/-! SUPPORT. What reset leaves and when it takes effect (R240 to R242), the busy lock over the whole window (R250), and when
a pending command ends (R260). -/

namespace Sys2Proof.Machine

/-! ### Reset (R240 to R242) -/

theorem statusWord_resetOf (b : Build) : statusWord (State.resetOf b) = 0x00000000#32 := by
  simp [statusWord, flagBit, State.resetOf]

/-- Settles O1: PARAM is the one word that depends on the build. -/
theorem resetLeavesTheSpecValues : Obligations.ResetLeavesTheSpecValues := by
  intro b s
  have hreg (i : Reg) : reg s i = 0 := reg_resetState i s
  exact ⟨rfl, hreg, fun _ => rfl, rfl, rfl, rfl, rfl, rfl, rfl, rfl, rfl, rfl, rfl, rfl, irq_resetState s,
    rfl, paramWord_eq_append b, rfl, statusWord_resetOf b, rfl, rfl, rfl, rfl⟩

/-- Settles O3: CTRL is not busy-locked, and its bit 31 alone picks the reset. -/
theorem softResetTakesEffectAtOnce : Obligations.SoftResetTakesEffectAtOnce := by
  intro s v hv
  rw [hostWrite_ctrl, writeCtrl_reset s hv]
  exact ⟨sameCore_resetState s, rfl, irq_resetState s⟩

theorem step_hardReset {s : State} {rest : List Event} (h : s.schedule = .hardReset :: rest) :
    step s = .next (resetState { s with schedule := rest }) := step_cons h

/-- Settles O4: the step is a reset of the state that has the event taken off its schedule. -/
theorem hardwareResetDiscardsEverything : Obligations.HardwareResetDiscardsEverything :=
  fun s rest h => ⟨_, step_hardReset h, sameCore_resetState { s with schedule := rest }, rfl, rfl⟩

/-! ### The busy lock (R250) -/

/-- STATUS is the one target whose word shows BUSY (R26). -/
theorem readTarget_ignores_busy {t : Target} (s : State) (b : Bool) (ht : t ≠ .status) :
    readTarget { s with busy := b } t = readTarget s t := by
  cases t with
  | status => exact absurd rfl ht
  | id | param | ctrl | cmd | trials | retryLimit | blen | bufWord | regWord | reserved => rfl

theorem hostRead_ignores_busy {off : Nat} (s : State) (b : Bool) (hoff : off ≠ 0x00C) :
    hostRead off { s with busy := b } = hostRead off s :=
  readTarget_ignores_busy s b fun ht => hoff (off_of_targetOf_status ht)

/-- A BUF word at or above BMAX/4 is reserved (R65). -/
theorem targetOf_bufWord_reserved {b : Build} {j : Nat} (hlo : b.bmax / 4 ≤ j) (hj : j < 64) :
    targetOf b (0x800 + 4 * j) = .reserved :=
  (targetOf_buf b hj).trans (if_neg (Nat.not_lt.2 hlo))

/-- A register word at or above WWORDS is reserved (R64). -/
theorem targetOf_regWord_reserved {b : Build} {k : Nat} (i : Reg) (hlo : b.wwords ≤ k) (hk : k < 64) :
    targetOf b (0x1000 + 0x100 * i.val + 4 * k) = .reserved :=
  (targetOf_reg b i hk).trans (if_neg (Nat.not_lt.2 hlo))

/-- Settles O20: each offset falls to the rule of its target, locked, unlocked or reserved. -/
theorem busyLockDropsWritesAndSetsOverrun : Obligations.BusyLockDropsWritesAndSetsOverrun := by
  intro s v
  have hignored {off : Nat} (ht : targetOf s.build off = .reserved) : hostWrite off v s = s :=
    (hostAccess_of_reserved ht v).2
  obtain ⟨-, hctrl, hreset, -⟩ := ctrlReadsAndWrites s v
  obtain ⟨-, -, hconst⟩ := idAndParamAreConstants s
  refine ⟨fun hb => ?_, hctrl, hreset, hostWrite_status v s, (hconst v).1, (hconst v).2,
    fun off _ h => hignored (targetOf_reserved _ h), fun j hlo hj => hignored (targetOf_bufWord_reserved hlo hj),
    fun i k hlo hk => hignored (targetOf_regWord_reserved i hlo hk), fun off b => hostRead_ignores_busy s b⟩
  have hlocked {off : Nat} {t : Target} (ht : targetOf s.build off = t) (hl : busyLocked t = true) :
      hostWrite off v s = { s with ovr := true } := hostWrite_locked ht hl hb
  exact ⟨hlocked (targetOf_cmd _) rfl, hlocked (targetOf_trials _) rfl, hlocked (targetOf_retryLimit _) rfl,
    hlocked (targetOf_blen _) rfl, fun j hj => hlocked (targetOf_bufWord hj) rfl,
    fun i k hk => hlocked (targetOf_regWord i hk) rfl⟩

/-! ### The schedule (R70) -/

theorem engineTurn_schedule {s t : State} (h : engineTurn s = .next t) : t.schedule = s.schedule := by
  rcases engineTurn_cases h with ⟨-, rfl⟩ | ⟨-, _, -, rfl⟩ | ⟨-, i, -, hexec⟩
  · rfl
  · exact raise_schedule s _
  · obtain ⟨-, -, -, -, -, -, hsched, -⟩ := exec_controls hexec
    exact hsched

/-- The window names no piece of the schedule, and a reset keeps it. -/
theorem storeTarget_schedule (v : Word) (s : State) (t : Target) : (storeTarget v s t).schedule = s.schedule := by
  cases t with
  | ctrl => exact writeCtrl_keeps (P := fun u => u.schedule = s.schedule) (resetState_schedule s) fun _ => rfl
  | trials => exact writeTrials_keeps (P := fun u => u.schedule = s.schedule) rfl fun _ _ => rfl
  | retryLimit => exact writeRetryLimit_keeps (P := fun u => u.schedule = s.schedule) rfl fun _ => rfl
  | id | param | status | cmd | blen | bufWord | regWord | reserved => rfl

theorem hostWrite_schedule (off : Nat) (v : Word) (s : State) : (hostWrite off v s).schedule = s.schedule := by
  rcases hostWrite_cases off v s with ⟨-, -, h⟩ | ⟨-, h⟩
  · rw [h]
  · rw [h, storeTarget_schedule]

theorem busRead_schedule (addr size : Nat) (s : State) : (busRead addr size s).schedule = s.schedule := by
  obtain ⟨_, _, h⟩ := busRead_cases addr size s
  rw [h]

theorem busWrite_schedule (addr size : Nat) (v : Word) (s : State) :
    (busWrite addr size v s).schedule = s.schedule := by
  rcases busWrite_cases addr size v s with ⟨off, -, -, h⟩ | ⟨_, h⟩
  · rw [h]
    exact hostWrite_schedule off v s
  · rw [h]

/-- A step takes one event off the schedule, and nothing puts one on. -/
theorem step_schedule {s t : State} (h : step s = .next t) : t.schedule = s.schedule.tail := by
  rcases step_cases h with ⟨hs, h⟩ | ⟨_, hs, h⟩ | ⟨_, _, _, hs, rfl⟩ | ⟨_, _, _, _, hs, rfl⟩ | ⟨_, hs, rfl⟩
  · rw [engineTurn_schedule h, hs, List.tail_nil]
  · rw [engineTurn_schedule h, hs, List.tail_cons]
  · rw [busRead_schedule, hs, List.tail_cons]
  · rw [busWrite_schedule, hs, List.tail_cons]
  · rw [resetState_schedule, hs, List.tail_cons]

/-! ### The end of a pending command (R36, R260) -/

/-- After an engine turn no command is pending: an idle core stays idle, and a performed command has cleared BUSY. -/
theorem engineTurn_busy {s t : State} (h : engineTurn s = .next t) : t.busy = false := by
  rcases engineTurn_cases h with ⟨hidle, rfl⟩ | ⟨-, _, -, rfl⟩ | ⟨-, i, -, hexec⟩
  · exact hidle
  · exact raise_busy s _
  · exact (exec_flags hexec).1

/-- Settles O13, by induction on the length of the schedule: with nothing scheduled the step is the engine's turn, and any
other step leaves a shorter schedule. -/
theorem pendingCommandIsEventuallyPerformed : Obligations.PendingCommandIsEventuallyPerformed := by
  intro s hb
  induction hn : s.schedule.length generalizing s with
  | zero =>
    obtain ⟨t, hstep⟩ := everyStepAnswersANextState s
    have hturn : engineTurn s = .next t := step_nil (List.eq_nil_of_length_eq_zero hn) ▸ hstep
    exact ⟨1, t, Nat.le_refl 1, run_succ 0 hstep, engineTurn_busy hturn⟩
  | succ n ih =>
    obtain ⟨t, hstep⟩ := everyStepAnswersANextState s
    cases hbt : t.busy with
    | false => exact ⟨1, t, by omega, run_succ 0 hstep, hbt⟩
    | true =>
      have hlen : t.schedule.length = n := by rw [step_schedule hstep, List.length_tail, hn, Nat.add_sub_cancel]
      obtain ⟨k, u, hk, hrun, hbu⟩ := ih t hbt hlen
      exact ⟨k + 1, u, Nat.succ_le_succ hk, (run_succ k hstep).trans hrun, hbu⟩

end Sys2Proof.Machine
end
